-- ==== Sys2Proof/Word.lean ====
section
/-! DEFINITION. The words of the block (00_scope.md R13): bytes, nibbles and the 28-bit request word, all unsigned. -/

namespace Sys2Proof

/-- A byte: an unsigned 8-bit value (R13). -/
abbrev Byte := BitVec 8

/-- A nibble: an unsigned 4-bit value (R13). -/
abbrev Nibble := BitVec 4

/-- A request word `op[27:24] a[23:16] b[15:8] len[7:0]` (30_encoding.md R100). -/
abbrev RequestWord := BitVec 28

end Sys2Proof
end

