-- ==== Sys2Proof/Config.lean ====
section
/-! DEFINITION. The implementation parameters of 00_scope.md R11 as one record, with the defaults the spec takes. -/

namespace Sys2Proof

/-- `T_INIT(k)` for k = 0..7: the wait, in time units, after send `k` of `INIT` (40_init_sequencer.md R122). -/
structure InitWaits where
  t0 : Nat
  t1 : Nat
  t2 : Nat
  t3 : Nat
  t4 : Nat
  t5 : Nat
  t6 : Nat
  t7 : Nat
  deriving DecidableEq, Repr

/-- The parameters DOC leaves open (00_scope.md R11). A machine has one configuration; no step changes it (log 6). -/
structure Config where
  /-- `EN_MASK`: the enable line of a transaction byte. -/
  enMask : Byte
  /-- `RW_MASK`: the read/write line. -/
  rwMask : Byte
  /-- `RS_MASK`: the register-select line. -/
  rsMask : Byte
  /-- `BL_MASK`: the backlight line. -/
  blMask : Byte
  /-- `DATA_LSB`: the lowest bit of the data field. -/
  dataLsb : Nat
  cmdClear : Byte
  cmdHome : Byte
  cmdEntryInit : Byte
  cmdDisplayInit : Byte
  cmdShiftLeft : Byte
  cmdShiftRight : Byte
  cmdFunctionInit : Byte
  cgramSet : Byte
  tInit : InitWaits
  /-- `BL_RESET`: the backlight state at reset. -/
  blReset : Bool
  /-- `STRICT_SLOT`: a slot above 7 is a fault instead of being masked (44_cgram_loader.md R204). -/
  strictSlot : Bool
  deriving DecidableEq, Repr

/-- The default configuration: the column "Default" of 00_scope.md R11.
PRESUMED by the spec itself from general knowledge of the family (logs 6 and 7). -/
def Config.default : Config where
  enMask := 0x04
  rwMask := 0x02
  rsMask := 0x01
  blMask := 0x08
  dataLsb := 4
  cmdClear := 0x01
  cmdHome := 0x02
  cmdEntryInit := 0x06
  cmdDisplayInit := 0x0C
  cmdShiftLeft := 0x18
  cmdShiftRight := 0x1C
  cmdFunctionInit := 0x28
  cgramSet := 0x40
  tInit := ⟨20, 20, 20, 20, 20, 20, 20, 20⟩
  blReset := true
  strictSlot := false

/-- `T_UNIT`, the physical length of one time unit: OPEN in the spec (92_eei_decisions.md D6), so a free value:
nothing says what it is, nor in which physical unit it counts (log 19). -/
opaque Config.tUnit : Nat

end Sys2Proof
end

