-- ==== Sys2Proof/Syntax.lean ====
section
/-! DEFINITION. The instructions of the block: one constructor per row of spec/opcode_table.json.
Three levels stand side by side (30_encoding.md R80): operation requests, controller command bytes, transaction bytes. -/

namespace Sys2Proof

/-- A glyph bitmap: exactly eight row bytes, row 0 the top row (44_cgram_loader.md R201, 00_scope.md R10). -/
structure Glyph where
  r0 : Byte
  r1 : Byte
  r2 : Byte
  r3 : Byte
  r4 : Byte
  r5 : Byte
  r6 : Byte
  r7 : Byte
  deriving DecidableEq, Repr

/-- The rows of a glyph in sending order: row 0 first (20_memory.md R53). -/
def Glyph.rows (g : Glyph) : List Byte := [g.r0, g.r1, g.r2, g.r3, g.r4, g.r5, g.r6, g.r7]

/-- The instructions. A field a request does not use is ignored on acceptance (30_encoding.md R100) and is no argument
here (log 27); an operand of a request is an unsigned byte (92_eei_decisions.md D11). -/
inductive Instr where
  /-- `INIT`, op 0x0 (40_init_sequencer.md R120). -/
  | init
  /-- `WRCMD byte`, op 0x1 (41_encoder.md R143). -/
  | wrcmd (byte : Byte)
  /-- `WRDATA byte`, op 0x2 (41_encoder.md R144). -/
  | wrdata (byte : Byte)
  /-- `CLEAR`, op 0x3 (45_display_ops.md R222). -/
  | clear
  /-- `BACKLIGHT on`, op 0x4, `on = a[0]` (45_display_ops.md R223). -/
  | backlight (on : Bool)
  /-- `SCROLLL`, op 0x5 (45_display_ops.md R224). -/
  | scrolll
  /-- `SCROLLR`, op 0x6 (45_display_ops.md R225). -/
  | scrollr
  /-- `SETCUR line, col`, op 0x7 (43_cursor_resolver.md R182). -/
  | setcur (line col : Byte)
  /-- `WRSTR line, col, text`, op 0x8; `len` is the number of characters (45_display_ops.md R227). -/
  | wrstr (line col : Byte) (text : List Byte)
  /-- `LDGLYPH slot, bitmap`, op 0x9 (44_cgram_loader.md R201). -/
  | ldglyph (slot : Byte) (bitmap : Glyph)
  /-- `LDGLYPHS bitmaps`, op 0xA; `len` is the number of bitmaps (44_cgram_loader.md R202). -/
  | ldglyphs (bitmaps : List Glyph)
  /-- Reserved request code 0xB (30_encoding.md R103). -/
  | reservedB
  /-- Reserved request code 0xC (R103). -/
  | reservedC
  /-- Reserved request code 0xD (R103). -/
  | reservedD
  /-- Reserved request code 0xE (R103). -/
  | reservedE
  /-- Reserved request code 0xF (R103). -/
  | reservedF
  /-- Clear-Display `00000001` (30_encoding.md R84). -/
  | clearDisplay
  /-- Return-Home `0000001x`; `x` is a bit the controller ignores (R84; log 28). -/
  | returnHome (x : Bool)
  /-- Entry-Mode-Set `000001is` (R84). -/
  | entryModeSet (id shift : Bool)
  /-- Display-Control `00001dcb` (R84). -/
  | displayControl (display cursor blink : Bool)
  /-- Cursor-or-Display-Shift `0001srxx` (R84). -/
  | cursorOrDisplayShift (sc rl : Bool) (x : BitVec 2)
  /-- Function-Set `001dnfxx` (R84). -/
  | functionSet (dl n f : Bool) (x : BitVec 2)
  /-- Set-CGRAM-Address `01aaaaaa` (R84). -/
  | setCgramAddress (addr : BitVec 6)
  /-- Set-DDRAM-Address `1aaaaaaa` (R84). -/
  | setDdramAddress (addr : BitVec 7)
  /-- The parameter `CMD_FUNCTION_INIT` (30_encoding.md R85). -/
  | cmdFunctionInit
  /-- The parameter `CMD_DISPLAY_INIT` (R85). -/
  | cmdDisplayInit
  /-- The parameter `CMD_CLEAR` (R85). -/
  | cmdClear
  /-- The parameter `CMD_ENTRY_INIT` (R85). -/
  | cmdEntryInit
  /-- The parameter `CMD_HOME` (R85). -/
  | cmdHome
  /-- The parameter `CMD_SHIFT_LEFT` (R85). -/
  | cmdShiftLeft
  /-- The parameter `CMD_SHIFT_RIGHT` (R85). -/
  | cmdShiftRight
  /-- A transaction byte `nnnnbe0r` (30_encoding.md R81): data nibble, backlight, enable and register-select lines;
  the read/write line is always 0. -/
  | xact (data : Nibble) (bl en rs : Bool)
  deriving DecidableEq, Repr

end Sys2Proof
end

