-- ==== Sys2Proof/Machine/State.lean ====
section
/-! DEFINITION. The state of the block (10_state.md), what stands around it as plain data, the reasons a step can stop,
and the state after reset (R35). -/

namespace Sys2Proof.Machine

/-- `life`, the lifecycle state (10_state.md R21). -/
inductive Life where
  | uninit
  | initializing
  | ready
  | failed
  deriving DecidableEq, Repr

/-- `fault`, the kind of the first fault since reset (10_state.md R23). -/
inductive FaultCode where
  | none
  | transport
  | init
  | invalidSlot
  deriving DecidableEq, Repr

/-- The three faults the block raises (60_exceptions.md R260). -/
inductive ErrorKind where
  | transportError
  | initializationError
  | invalidSlot
  deriving DecidableEq, Repr

/-- Why a request is refused (60_exceptions.md R272). -/
inductive RefuseReason where
  | illegalRequest
  | notUninit
  | notReady
  deriving DecidableEq, Repr

/-- The response to a request (45_display_ops.md R226). -/
inductive Response where
  | done
  | error (kind : ErrorKind)
  | refused (reason : RefuseReason)
  deriving DecidableEq, Repr

/-- An event of the transport trace (00_scope.md R9). -/
inductive Event where
  /-- `W(b)`: a write of `b` answered `success`. -/
  | W (b : Byte)
  /-- `F(b)`: a write of `b` answered `failure`. -/
  | F (b : Byte)
  /-- `D(n)`: a mandatory wait of at least `n` time units. -/
  | D (n : Nat)
  deriving DecidableEq, Repr

/-- An event the sequencer has still to perform (10_state.md R26). -/
inductive Pending where
  /-- `XWrite(v | BLV)`: the backlight is merged when the write is issued (log 24). -/
  | write (v : Byte)
  /-- `Delay(n)`. -/
  | delay (n : Nat)
  deriving DecidableEq, Repr

/-- The transport's answer to a write (20_memory.md R50). -/
inductive Answer where
  | success
  | failure
  deriving DecidableEq, Repr

/-- A request as the host presents it: a 28-bit word and a payload (30_encoding.md R100). -/
structure Request where
  word : RequestWord
  payload : List Byte
  deriving DecidableEq, Repr

/-- What reaches the block from outside (00_scope.md R8). The model's own (log 2). -/
inductive Input where
  /-- The host presents a request. -/
  | present (q : Request)
  /-- The transport answers the write that is outstanding. -/
  | answer (a : Answer)
  /-- `n` time units pass. -/
  | elapse (n : Nat)
  /-- The host asserts reset (70_reset_and_hazards.md R302). -/
  | reset
  deriving DecidableEq, Repr

/-- `seq`: the accepted request and the sequencer position (10_state.md R24, R26). -/
structure SeqState where
  /-- The accepted request: opcode, operands and payload, captured at acceptance. -/
  op : Instr
  /-- The events still to perform, the outstanding one first; R26 lets a model hold these for the index `seq_pc`. -/
  todo : List Pending
  /-- The delay timer: the time units that have passed since the outstanding delay began (60_exceptions.md R281). -/
  elapsed : Nat
  deriving DecidableEq, Repr

/-- The state: the six fields of 10_state.md R20, the observation of 00_scope.md R9, and, as the model's own plain data,
what R8 calls parameters of the step relation (`port`, `inputs`) and the configuration of R11 (`cfg`). -/
structure State where
  /-- R21. -/
  life : Life
  /-- R22: the backlight is on. -/
  bl : Bool
  /-- R23. -/
  fault : FaultCode
  /-- R23: `fault_byte`. -/
  faultByte : Byte
  /-- R24. -/
  busy : Bool
  /-- R24, R26. -/
  seq : Option SeqState
  /-- The transport trace since reset, oldest event first (R9). -/
  trace : List Event
  /-- The responses given since reset, oldest first (R9, R226). -/
  responses : List Response
  /-- The requests that wait at the request port, oldest first (R7, R221; log 3). -/
  port : List Request
  /-- What reaches the block from outside next, in order (R8; log 2). -/
  inputs : List Input
  /-- The configuration (R11); no step changes it (log 6). -/
  cfg : Config
  deriving DecidableEq, Repr

/-- The reasons the MODEL stops with a fault. The block's own faults (R260) are next states, not these. -/
inductive Fault where
  /-- Raised by `step` alone, in a state where `busy` is set and no event is outstanding. No run reaches such a state
  (10_state.md R24). Safe: the model stops (log 17). -/
  | sequencerInconsistent
  deriving DecidableEq, Repr

/-- The reasons the MODEL gives an instruction no meaning. The block's own refusals (R272) are next states, not these. -/
inductive Refusal where
  /-- An instruction the model has no meaning for. Raised by an arm of `exec` alone. Safe. -/
  | notModelled (mnemonic : String)
  /-- Raised by `execXact` where the sequencer has no write of that byte outstanding: the block writes a transaction byte
  only as an event of an accepted operation (42_nibble_strobe.md R160, R166). Safe: the model stops (log 13). -/
  | noSuchWriteOutstanding
  deriving DecidableEq, Repr

/-- The state reset gives under a configuration (10_state.md R35), with nothing presented and nothing arriving. -/
def State.resetOf (c : Config) : State where
  life := .uninit
  bl := c.blReset
  fault := .none
  faultByte := 0x00
  busy := false
  seq := none
  trace := []
  responses := []
  port := []
  inputs := []
  cfg := c

/-- The machine right after reset, in the default configuration (R35, R300). -/
def State.reset : State := .resetOf .default

end Sys2Proof.Machine
end

