-- ==== Sys2Proof/Machine/Flags.lean ====
section
/-! DEFINITION. Status values. The block has no condition codes and no operation sets a flag (10_state.md R27); these are
the code numbers of its status fields, the status read (R28) and the backlight field every write carries (R14, R22). -/

namespace Sys2Proof.Machine

/-- The 2-bit code of `life` (10_state.md R20). -/
def Life.code : Life → BitVec 2
  | .uninit => 0
  | .initializing => 1
  | .ready => 2
  | .failed => 3

/-- The 2-bit code of `fault` (10_state.md R20, 60_exceptions.md R260). -/
def FaultCode.code : FaultCode → BitVec 2
  | .none => 0
  | .transport => 1
  | .init => 2
  | .invalidSlot => 3

/-- What `fault` records for an error kind: `code(K)` of 60_exceptions.md R266. -/
def ErrorKind.faultCode : ErrorKind → FaultCode
  | .transportError => .transport
  | .initializationError => .init
  | .invalidSlot => .invalidSlot

/-- The reason codes of 60_exceptions.md R272. -/
def RefuseReason.code : RefuseReason → Nat
  | .illegalRequest => 1
  | .notUninit => 2
  | .notReady => 3

/-- The status read `(life, bl, fault, fault_byte, busy)` (10_state.md R28): a value, no operation. -/
def State.status (s : State) : Life × Bool × FaultCode × Byte × Bool :=
  (s.life, s.bl, s.fault, s.faultByte, s.busy)

/-- A fault has been recorded: `fault != NONE` (10_state.md R27). -/
def State.faultRecorded (s : State) : Bool := s.fault != .none

/-- `BLV`, the backlight field of a transaction byte (00_scope.md R14). -/
def blv (c : Config) (bl : Bool) : Byte := if bl then c.blMask else 0x00

end Sys2Proof.Machine
end

