-- ==== Sys2Proof/WellFormed.lean ====
section
/-! DEFINITION. Well-formed instructions (the counts fit the 8-bit `len` field, 30_encoding.md R100, R102) and
well-formed configurations (00_scope.md R12). -/

namespace Sys2Proof

/-- An instruction that a request word can spell: at most 255 characters (`WRSTR`) or bitmaps (`LDGLYPHS`), since the
count is the 8-bit field `len` (R100, R101). Every other constructor is well-formed by its type. -/
def Instr.wf : Instr → Bool
  | .wrstr _ _ text => decide (text.length ≤ 255)
  | .ldglyphs bitmaps => decide (bitmaps.length ≤ 255)
  | .init | .wrcmd _ | .wrdata _ | .clear | .backlight _ | .scrolll | .scrollr | .setcur _ _ | .ldglyph _ _ => true
  | .reservedB | .reservedC | .reservedD | .reservedE | .reservedF => true
  | .clearDisplay | .returnHome _ | .entryModeSet _ _ | .displayControl _ _ _ | .cursorOrDisplayShift _ _ _ => true
  | .functionSet _ _ _ _ | .setCgramAddress _ | .setDdramAddress _ => true
  | .cmdFunctionInit | .cmdDisplayInit | .cmdClear | .cmdEntryInit | .cmdHome | .cmdShiftLeft | .cmdShiftRight => true
  | .xact _ _ _ _ => true

/-- The eight single-bit masks of a byte. -/
def singleBitMasks : List Byte := [0x01, 0x02, 0x04, 0x08, 0x10, 0x20, 0x40, 0x80]

/-- The four bits `[DATA_LSB+3 : DATA_LSB]` of a transaction byte, all set (R12). -/
def Config.dataMask (c : Config) : Byte := 0x0F#8 <<< c.dataLsb

/-- The four control masks of a transaction byte. -/
def Config.controlMasks (c : Config) : List Byte := [c.enMask, c.rwMask, c.rsMask, c.blMask]

/-- R12: four distinct single-bit masks, `DATA_LSB` in 0..4, and no control mask inside the data field. -/
def Config.wf (c : Config) : Bool :=
  c.controlMasks.all (fun m => singleBitMasks.contains m)
    && decide c.controlMasks.Nodup
    && decide (c.dataLsb ≤ 4)
    && c.controlMasks.all (fun m => m &&& c.dataMask == 0)

/-- The seven command bytes of format CMD_FIXED are pairwise different, as the defaults are, so that such a byte has one
name. R11 does not ask it of a configuration; only decoding a CMD_FIXED byte rests on it. -/
def Config.fixedDistinct (c : Config) : Bool :=
  decide ([c.cmdFunctionInit, c.cmdDisplayInit, c.cmdClear, c.cmdEntryInit, c.cmdHome, c.cmdShiftLeft,
    c.cmdShiftRight].Nodup)

/-- The clause of R12 about DOC §4.1: some init wait is at least 20 units. -/
def Config.initWaitsConform (c : Config) : Bool :=
  [c.tInit.t0, c.tInit.t1, c.tInit.t2, c.tInit.t3, c.tInit.t4, c.tInit.t5, c.tInit.t6, c.tInit.t7].any
    (fun t => decide (20 ≤ t))

end Sys2Proof
end

