-- ==== Sys2Proof/Decode.lean ====
section
/-! DEFINITION. The encodings (30_encoding.md): the four formats of the opcode table, a decoder total on any word, byte
and payload, the encoder, and the opcode table itself as rows of mask and match. -/

namespace Sys2Proof

/-- An encoded instruction. Which of the formats a byte or word has is known from where it stands (request port,
encoder, transport), never from its bits (R80). -/
inductive Code where
  /-- Format REQ: the 28-bit word and the payload that accompanies it (R100, R102). -/
  | req (word : RequestWord) (payload : List Byte)
  /-- Format CMD: a controller command byte, sent with RS = 0 (R84). -/
  | cmd (byte : Byte)
  /-- Format CMD_FIXED: a command byte named as a parameter of the configuration (R85). -/
  | cmdFixed (byte : Byte)
  /-- Format XACT: a byte written to the transport (R81). -/
  | xact (byte : Byte)
  deriving DecidableEq, Repr

/-- Why a code spells no instruction. -/
inductive Reject where
  /-- The payload has another length than `op` and `len` tell (R102): `ILLEGAL_REQUEST`. -/
  | payloadLength
  /-- The byte spells no command of R84; `0x00` is the only one (R104). -/
  | noCommand
  /-- The byte is none of the configuration's fixed command bytes (R85). -/
  | noFixedCommand
  /-- The read/write line is set, which the block never does (R81, R164). -/
  | readWriteHigh
  deriving DecidableEq, Repr

/-! ## The request word -/

/-- `op[27:24] a[23:16] b[15:8] len[7:0]` (R100). -/
def requestWord (op : BitVec 4) (a b len : Byte) : RequestWord := op ++ a ++ b ++ len

def opField (w : RequestWord) : BitVec 4 := w.extractLsb' 24 4
def aField (w : RequestWord) : Byte := w.extractLsb' 16 8
def bField (w : RequestWord) : Byte := w.extractLsb' 8 8
def lenField (w : RequestWord) : Byte := w.extractLsb' 0 8

/-- The number of payload bytes, told from `op` and `len` alone (R102). A reserved code has no payload length of its own:
it is refused with any payload (R103). -/
def payloadLength (w : RequestWord) : Nat :=
  match opField w with
  | 0x8#4 => (lenField w).toNat
  | 0x9#4 => 8
  | 0xA#4 => 8 * (lenField w).toNat
  | _ => 0

/-- A payload cut into bitmaps of eight rows; none when a part of a bitmap is left over. -/
def glyphsOf : List Byte → Option (List Glyph)
  | [] => some []
  | a :: b :: c :: d :: e :: f :: g :: h :: rest => (glyphsOf rest).map (⟨a, b, c, d, e, f, g, h⟩ :: ·)
  | _ => none

/-- The eleven operations of R101, their payload having the right length. -/
def decodeOperation (w : RequestWord) (payload : List Byte) : Option Instr :=
  match opField w with
  | 0x0#4 => some .init
  | 0x1#4 => some (.wrcmd (aField w))
  | 0x2#4 => some (.wrdata (aField w))
  | 0x3#4 => some .clear
  | 0x4#4 => some (.backlight ((aField w).getLsbD 0))
  | 0x5#4 => some .scrolll
  | 0x6#4 => some .scrollr
  | 0x7#4 => some (.setcur (aField w) (bField w))
  | 0x8#4 => some (.wrstr (aField w) (bField w) payload)
  | 0x9#4 =>
    match glyphsOf payload with
    | some [g] => some (.ldglyph (aField w) g)
    | _ => none
  | 0xA#4 => (glyphsOf payload).map .ldglyphs
  | _ => none

/-- Reserved request codes 0xB to 0xF (R103). -/
def decodeReserved (op : BitVec 4) : Option Instr :=
  match op with
  | 0xB#4 => some .reservedB
  | 0xC#4 => some .reservedC
  | 0xD#4 => some .reservedD
  | 0xE#4 => some .reservedE
  | 0xF#4 => some .reservedF
  | _ => none

/-- The request a word and its payload spell (R100 to R103). -/
def decodeRequest (w : RequestWord) (payload : List Byte) : Except Reject Instr :=
  match decodeReserved (opField w) with
  | some i => .ok i
  | none =>
    if payload.length = payloadLength w then
      match decodeOperation w payload with
      | some i => .ok i
      | none => .error .payloadLength
    else .error .payloadLength

/-! ## Command bytes (R84), each built as the table draws it, bit 7 first -/

def clearDisplayByte : Byte := 0b00000001#8
def returnHomeByte (x : Bool) : Byte := 0b0000001#7 ++ BitVec.ofBool x
def entryModeSetByte (id shift : Bool) : Byte := 0b000001#6 ++ BitVec.ofBool id ++ BitVec.ofBool shift
def displayControlByte (d c b : Bool) : Byte := 0b00001#5 ++ BitVec.ofBool d ++ BitVec.ofBool c ++ BitVec.ofBool b
def cursorOrDisplayShiftByte (sc rl : Bool) (x : BitVec 2) : Byte :=
  0b0001#4 ++ BitVec.ofBool sc ++ BitVec.ofBool rl ++ x
def functionSetByte (dl n f : Bool) (x : BitVec 2) : Byte :=
  0b001#3 ++ BitVec.ofBool dl ++ BitVec.ofBool n ++ BitVec.ofBool f ++ x
def setCgramAddressByte (a : BitVec 6) : Byte := 0b01#2 ++ a
def setDdramAddressByte (a : BitVec 7) : Byte := 0b1#1 ++ a

/-- The command a byte of format CMD spells: the highest bit set tells the command (R84). -/
def decodeCommand (b : Byte) : Except Reject Instr :=
  if b.getLsbD 7 then .ok (.setDdramAddress (b.extractLsb' 0 7))
  else if b.getLsbD 6 then .ok (.setCgramAddress (b.extractLsb' 0 6))
  else if b.getLsbD 5 then .ok (.functionSet (b.getLsbD 4) (b.getLsbD 3) (b.getLsbD 2) (b.extractLsb' 0 2))
  else if b.getLsbD 4 then .ok (.cursorOrDisplayShift (b.getLsbD 3) (b.getLsbD 2) (b.extractLsb' 0 2))
  else if b.getLsbD 3 then .ok (.displayControl (b.getLsbD 2) (b.getLsbD 1) (b.getLsbD 0))
  else if b.getLsbD 2 then .ok (.entryModeSet (b.getLsbD 1) (b.getLsbD 0))
  else if b.getLsbD 1 then .ok (.returnHome (b.getLsbD 0))
  else if b.getLsbD 0 then .ok .clearDisplay
  else .error .noCommand

/-- The fixed command of R85 whose value in configuration `c` is the byte. -/
def decodeFixed (c : Config) (b : Byte) : Except Reject Instr :=
  if b = c.cmdFunctionInit then .ok .cmdFunctionInit
  else if b = c.cmdDisplayInit then .ok .cmdDisplayInit
  else if b = c.cmdClear then .ok .cmdClear
  else if b = c.cmdEntryInit then .ok .cmdEntryInit
  else if b = c.cmdHome then .ok .cmdHome
  else if b = c.cmdShiftLeft then .ok .cmdShiftLeft
  else if b = c.cmdShiftRight then .ok .cmdShiftRight
  else .error .noFixedCommand

/-! ## Transaction bytes (R81) -/

/-- A control line of a transaction byte: its mask when the line is high, else nothing. -/
def lineBits (mask : Byte) (high : Bool) : Byte := if high then mask else 0x00

/-- The transaction byte with the given fields; the read/write field is 0 (R81). -/
def transactionByte (c : Config) (data : Nibble) (bl en rs : Bool) : Byte :=
  (data.setWidth 8 <<< c.dataLsb) ||| lineBits c.blMask bl ||| lineBits c.enMask en ||| lineBits c.rsMask rs

/-- The data field `[DATA_LSB+3 : DATA_LSB]` of a transaction byte (R12, R81). -/
def dataField (c : Config) (b : Byte) : Nibble := b.extractLsb' c.dataLsb 4

/-- Is a control line high in a transaction byte? -/
def lineHigh (mask b : Byte) : Bool := b &&& mask != 0

/-- The fields of a transaction byte, rejecting one whose read/write line is high. -/
def decodeTransaction (c : Config) (b : Byte) : Except Reject Instr :=
  if lineHigh c.rwMask b then .error .readWriteHigh
  else .ok (.xact (dataField c b) (lineHigh c.blMask b) (lineHigh c.enMask b) (lineHigh c.rsMask b))

/-! ## Decoder and encoder -/

/-- The decoder, total: an instruction, or a rejection by name. -/
def decode (c : Config) : Code → Except Reject Instr
  | .req w payload => decodeRequest w payload
  | .cmd b => decodeCommand b
  | .cmdFixed b => decodeFixed c b
  | .xact b => decodeTransaction c b

/-- The encoder: the word, byte or payload of each instruction; fields a request ignores are written 0 (R100; log 27). An
ill-formed instruction, with more than 255 characters or bitmaps, has no word: `len` is then the count mod 256, a value the
model gives it (DESIGN CHOICE, log 30), so that its word and payload are no request (R102). -/
def encode (c : Config) : Instr → Code
  | .init => .req (requestWord 0x0 0 0 0) []
  | .wrcmd byte => .req (requestWord 0x1 byte 0 0) []
  | .wrdata byte => .req (requestWord 0x2 byte 0 0) []
  | .clear => .req (requestWord 0x3 0 0 0) []
  | .backlight on => .req (requestWord 0x4 (if on then 0x01 else 0x00) 0 0) []
  | .scrolll => .req (requestWord 0x5 0 0 0) []
  | .scrollr => .req (requestWord 0x6 0 0 0) []
  | .setcur line col => .req (requestWord 0x7 line col 0) []
  | .wrstr line col text => .req (requestWord 0x8 line col (BitVec.ofNat 8 text.length)) text
  | .ldglyph slot bitmap => .req (requestWord 0x9 slot 0 0) bitmap.rows
  | .ldglyphs bitmaps => .req (requestWord 0xA 0 0 (BitVec.ofNat 8 bitmaps.length)) (bitmaps.flatMap Glyph.rows)
  | .reservedB => .req (requestWord 0xB 0 0 0) []
  | .reservedC => .req (requestWord 0xC 0 0 0) []
  | .reservedD => .req (requestWord 0xD 0 0 0) []
  | .reservedE => .req (requestWord 0xE 0 0 0) []
  | .reservedF => .req (requestWord 0xF 0 0 0) []
  | .clearDisplay => .cmd clearDisplayByte
  | .returnHome x => .cmd (returnHomeByte x)
  | .entryModeSet id shift => .cmd (entryModeSetByte id shift)
  | .displayControl d cu b => .cmd (displayControlByte d cu b)
  | .cursorOrDisplayShift sc rl x => .cmd (cursorOrDisplayShiftByte sc rl x)
  | .functionSet dl n f x => .cmd (functionSetByte dl n f x)
  | .setCgramAddress a => .cmd (setCgramAddressByte a)
  | .setDdramAddress a => .cmd (setDdramAddressByte a)
  | .cmdFunctionInit => .cmdFixed c.cmdFunctionInit
  | .cmdDisplayInit => .cmdFixed c.cmdDisplayInit
  | .cmdClear => .cmdFixed c.cmdClear
  | .cmdEntryInit => .cmdFixed c.cmdEntryInit
  | .cmdHome => .cmdFixed c.cmdHome
  | .cmdShiftLeft => .cmdFixed c.cmdShiftLeft
  | .cmdShiftRight => .cmdFixed c.cmdShiftRight
  | .xact data bl en rs => .xact (transactionByte c data bl en rs)

/-! ## Words numbered as the opcode table numbers them -/

/-- The payload of a table word whose operand bytes are zeros: as many zeros as `op` and `len` tell. -/
def zeroPayload (w : RequestWord) : List Byte := List.replicate (payloadLength w) 0x00

/-- A byte without its format: the most specific row of the opcode table that it matches, the earlier row among equals
(log 14). `0x01` is Clear-Display and CMD_CLEAR; `0x02` is CMD_HOME and Return-Home with `x` = 0. -/
def decodeTableByte (b : Byte) : Option Instr :=
  if b = clearDisplayByte then some .clearDisplay
  else
    match decodeFixed Config.default b with
    | .ok i => some i
    | .error _ =>
      match decodeCommand b with
      | .ok i => some i
      | .error _ => (decodeTransaction Config.default b).toOption

/-- The instruction the decoder reads from a table word of `nbits` bits: a byte of the formats CMD, CMD_FIXED and XACT
(default layout), or a request word of 28 bits in 32 with a payload of zeros. -/
def decodeTableWord (nbits w : Nat) : Option Instr :=
  if nbits ≤ 8 then
    if w < 2 ^ 8 then decodeTableByte (BitVec.ofNat 8 w) else none
  else if w < 2 ^ 28 then
    (decodeRequest (BitVec.ofNat 28 w) (zeroPayload (BitVec.ofNat 28 w))).toOption
  else none

/-! ## The opcode table -/

/-- The formats of the opcode table. -/
inductive Format where
  | req
  | cmd
  | cmdFixed
  | xact
  deriving DecidableEq, Repr

/-- A row of spec/opcode_table.json: a word `w` has the row's bits when `w &&& mask = match`. Bytes stand in the low
8 bits. The bits are those of the default configuration. -/
structure Row where
  mnemonic : String
  format : Format
  mask : RequestWord
  value : RequestWord
  deriving DecidableEq, Repr

def Row.accepts (r : Row) (w : RequestWord) : Bool := w &&& r.mask == r.value

/-- The row of each instruction. -/
def tableRow : Instr → Row
  | .init => ⟨"INIT", .req, 0xF000000, 0x0000000⟩
  | .wrcmd _ => ⟨"WRCMD", .req, 0xF000000, 0x1000000⟩
  | .wrdata _ => ⟨"WRDATA", .req, 0xF000000, 0x2000000⟩
  | .clear => ⟨"CLEAR", .req, 0xF000000, 0x3000000⟩
  | .backlight _ => ⟨"BACKLIGHT", .req, 0xF000000, 0x4000000⟩
  | .scrolll => ⟨"SCROLLL", .req, 0xF000000, 0x5000000⟩
  | .scrollr => ⟨"SCROLLR", .req, 0xF000000, 0x6000000⟩
  | .setcur _ _ => ⟨"SETCUR", .req, 0xF000000, 0x7000000⟩
  | .wrstr _ _ _ => ⟨"WRSTR", .req, 0xF000000, 0x8000000⟩
  | .ldglyph _ _ => ⟨"LDGLYPH", .req, 0xF000000, 0x9000000⟩
  | .ldglyphs _ => ⟨"LDGLYPHS", .req, 0xF000000, 0xA000000⟩
  | .reservedB => ⟨"RESERVED_B", .req, 0xF000000, 0xB000000⟩
  | .reservedC => ⟨"RESERVED_C", .req, 0xF000000, 0xC000000⟩
  | .reservedD => ⟨"RESERVED_D", .req, 0xF000000, 0xD000000⟩
  | .reservedE => ⟨"RESERVED_E", .req, 0xF000000, 0xE000000⟩
  | .reservedF => ⟨"RESERVED_F", .req, 0xF000000, 0xF000000⟩
  | .clearDisplay => ⟨"Clear-Display", .cmd, 0xFF, 0x01⟩
  | .returnHome _ => ⟨"Return-Home", .cmd, 0xFE, 0x02⟩
  | .entryModeSet _ _ => ⟨"Entry-Mode-Set", .cmd, 0xFC, 0x04⟩
  | .displayControl _ _ _ => ⟨"Display-Control", .cmd, 0xF8, 0x08⟩
  | .cursorOrDisplayShift _ _ _ => ⟨"Cursor-or-Display-Shift", .cmd, 0xF0, 0x10⟩
  | .functionSet _ _ _ _ => ⟨"Function-Set", .cmd, 0xE0, 0x20⟩
  | .setCgramAddress _ => ⟨"Set-CGRAM-Address", .cmd, 0xC0, 0x40⟩
  | .setDdramAddress _ => ⟨"Set-DDRAM-Address", .cmd, 0x80, 0x80⟩
  | .cmdFunctionInit => ⟨"CMD_FUNCTION_INIT", .cmdFixed, 0xFF, 0x28⟩
  | .cmdDisplayInit => ⟨"CMD_DISPLAY_INIT", .cmdFixed, 0xFF, 0x0C⟩
  | .cmdClear => ⟨"CMD_CLEAR", .cmdFixed, 0xFF, 0x01⟩
  | .cmdEntryInit => ⟨"CMD_ENTRY_INIT", .cmdFixed, 0xFF, 0x06⟩
  | .cmdHome => ⟨"CMD_HOME", .cmdFixed, 0xFF, 0x02⟩
  | .cmdShiftLeft => ⟨"CMD_SHIFT_LEFT", .cmdFixed, 0xFF, 0x18⟩
  | .cmdShiftRight => ⟨"CMD_SHIFT_RIGHT", .cmdFixed, 0xFF, 0x1C⟩
  | .xact _ _ _ _ => ⟨"XACT", .xact, 0x02, 0x00⟩

def Code.format : Code → Format
  | .req _ _ => .req
  | .cmd _ => .cmd
  | .cmdFixed _ => .cmdFixed
  | .xact _ => .xact

/-- The word of a code, a byte standing in the low 8 bits. -/
def Code.word : Code → RequestWord
  | .req w _ => w
  | .cmd b | .cmdFixed b | .xact b => b.setWidth 28

end Sys2Proof
end

