-- ==== Sys2Proof/Machine/Operands.lean ====
section
/-! DEFINITION. The values the block computes from operands (30_encoding.md sections 2 to 4): nibbles, transaction values,
the per-line offsets, DDRAM and CGRAM addresses and the command bytes that carry them; the constants of 00_scope.md R10. -/

namespace Sys2Proof.Machine

/-- `T_EN_HIGH` (R10). -/
def tEnHigh : Nat := 5

/-- `T_EN_LOW` (R10). -/
def tEnLow : Nat := 1

/-- `DDRAM_SET`: "high bit set, per controller convention" (R10). -/
def ddramSet : Byte := 0x80

/-- `b[7:4]` (30_encoding.md R88). -/
def hiNibble (b : Byte) : Nibble := b.extractLsb' 4 4

/-- `b[3:0]` (R88). -/
def loNibble (b : Byte) : Nibble := b.extractLsb' 0 4

/-- `XACT(nib, rs)`, the transaction value (30_encoding.md R82). -/
def xactValue (c : Config) (nib : Nibble) (rs : Bool) : Byte :=
  (nib.setWidth 8 <<< c.dataLsb) ||| (if rs then c.rsMask else 0x00)

/-- `ENCODE(b, rs)`: the two transaction values in sending order, high nibble first (41_encoder.md R140, 20_memory.md R52). -/
def encodeByte (c : Config) (b : Byte) (rs : Bool) : Byte × Byte :=
  (xactValue c (hiNibble b) rs, xactValue c (loNibble b) rs)

/-- `LINE_BASE(line)` (43_cursor_resolver.md R181); any other line falls back to `0x00`. -/
def lineBase (line : Byte) : Nat :=
  if line = 1 then 0x00
  else if line = 2 then 0x40
  else if line = 3 then 0x14
  else if line = 4 then 0x54
  else 0x00

/-- `RESOLVE(line, col)`: a 7-bit DDRAM address, the sum taken mod 128 (43_cursor_resolver.md R180). -/
def resolve (line col : Byte) : BitVec 7 := BitVec.ofNat 7 (lineBase line + col.toNat)

/-- The Set-DDRAM-Address command byte `0x80 | addr7` (30_encoding.md R86). -/
def setDdramCommand (line col : Byte) : Byte := ddramSet ||| (resolve line col).setWidth 8

/-- `(slot & 0x07) * 8`, the first CGRAM address of a slot (44_cgram_loader.md R200). -/
def slotAddress (slot : Byte) : Byte := (slot &&& 0x07) * 8

/-- The Set-CGRAM-Address command byte `CGRAM_SET | addr6` (30_encoding.md R87). -/
def setCgramCommand (c : Config) (addr : Byte) : Byte := c.cgramSet ||| addr

end Sys2Proof.Machine
end

