-- ==== Sys2Proof/Machine/Ops.lean ====
section
/-! DEFINITION. The shared operations: event lists of the micro-operations (42_nibble_strobe.md, 41_encoder.md), request
acceptance, response and refusal (45_display_ops.md R221, R226), `raise` (60_exceptions.md R266), one event of the
sequencer (20_memory.md R50, R63) and reset (70_reset_and_hazards.md R302). -/

namespace Sys2Proof.Machine

/-! ## Micro-operations as event lists -/

/-- `STROBE(v)` (42_nibble_strobe.md R160). -/
def strobe (c : Config) (v : Byte) : List Pending :=
  [.write (v ||| c.enMask), .delay tEnHigh, .write (v &&& ~~~c.enMask), .delay tEnLow]

/-- `NIB(n)`: one raw nibble with RS = 0 (42_nibble_strobe.md R166). -/
def nib (c : Config) (n : Nibble) : List Pending := strobe c (xactValue c n false)

/-- `SENDBYTE(b, rs)`: two strobed nibbles (41_encoder.md R142). -/
def sendByte (c : Config) (b : Byte) (rs : Bool) : List Pending :=
  strobe c (encodeByte c b rs).1 ++ strobe c (encodeByte c b rs).2

/-- Data bytes in order, each with RS = 1 (20_memory.md R53, 30_encoding.md R89). -/
def sendData (c : Config) (bytes : List Byte) : List Pending := bytes.flatMap (fun b => sendByte c b true)

/-! ## Responses and acceptance -/

/-- `respond(r)`: `busy <- 0`, `seq` emptied, `r` given to the host (45_display_ops.md R226). -/
def respond (r : Response) (s : State) : State :=
  { s with busy := false, seq := none, responses := s.responses ++ [r] }

/-- `respond(REFUSED(reason))` of a request that was not accepted: no state field changes (60_exceptions.md R272). -/
def refuse (r : RefuseReason) (s : State) : State :=
  { s with responses := s.responses ++ [.refused r] }

/-- `accept(q)`: `busy <- 1`, `seq <- (q, position 0)`, with the events the operation expands into
(45_display_ops.md R221, 10_state.md R26). -/
def accept (op : Instr) (events : List Pending) (s : State) : State :=
  { s with busy := true, seq := some ⟨op, events, 0⟩ }

/-- Acceptance of every operation but `INIT` (45_display_ops.md R221): while `busy` the request waits and nothing changes
(log 16); unless `life = READY` it is refused; else `run` says what the operation does. -/
def whenReady (run : State → State) (s : State) : Host.Outcome State Fault Refusal :=
  if s.busy then .next s
  else if s.life = .ready then .next (run s)
  else .next (refuse .notReady s)

/-- An operation that is accepted in `READY` and then performs `events`. -/
def operate (op : Instr) (events : List Pending) (s : State) : Host.Outcome State Fault Refusal :=
  whenReady (accept op events) s

/-- A request code that spells no operation (30_encoding.md R103, 45_display_ops.md R221). -/
def refuseIllegal (s : State) : Host.Outcome State Fault Refusal :=
  if s.busy then .next s else .next (refuse .illegalRequest s)

/-- `WRCMD byte` as an operation: `SENDBYTE(byte, 0)` (41_encoder.md R143). -/
def sendCommand (byte : Byte) (s : State) : Host.Outcome State Fault Refusal :=
  operate (.wrcmd byte) (sendByte s.cfg byte false) s

/-! ## Faults -/

/-- The operation in progress. -/
def State.running (s : State) : Option Instr := s.seq.map (·.op)

/-- The kind a fault is reported as: a failed write inside `INIT` is an `InitializationError` (60_exceptions.md R262). -/
def reportedKind (k : ErrorKind) (s : State) : ErrorKind :=
  if k = .transportError ∧ s.running = some .init then .initializationError else k

/-- The first fault since reset is recorded, a later one is not (60_exceptions.md R264, 10_state.md R23). -/
def recordFault (k : ErrorKind) (info : Byte) (s : State) : State :=
  if s.fault = .none then { s with fault := k.faultCode, faultByte := info } else s

/-- `life <- FAILED` for an `InitializationError`, else unchanged (60_exceptions.md R266). -/
def failLife (k : ErrorKind) (s : State) : State :=
  if k = .initializationError then { s with life := .failed } else s

/-- `raise K(info)`: stop the operation, record, fail, respond (60_exceptions.md R266). Control returns to the idle block:
there is no handler and no return (R269). -/
def raise (k : ErrorKind) (info : Byte) (s : State) : State :=
  respond (.error (reportedKind k s)) (failLife (reportedKind k s) (recordFault (reportedKind k s) info s))

/-! ## One event of the sequencer -/

/-- Append an event to the trace (00_scope.md R9). -/
def record (e : Event) (s : State) : State := { s with trace := s.trace ++ [e] }

/-- The event the sequencer is at, if an operation is in progress (10_state.md R26). -/
def State.outstanding (s : State) : Option Pending := s.seq.bind (·.todo.head?)

/-- The end of an operation: `INIT` sets `life <- READY` (40_init_sequencer.md R120); every operation then responds
`DONE`, in the step of its last event (log 10). -/
def finish (s : State) : State :=
  respond .done (if s.running = some .init then { s with life := .ready } else s)

/-- The outstanding event is complete: the position advances by one (10_state.md R26), and after the last event the
operation ends (45_display_ops.md R226). -/
def advance (s : State) : State :=
  match s.seq with
  | none => s
  | some q =>
    match q.todo.tail with
    | [] => finish s
    | p :: rest => { s with seq := some ⟨q.op, p :: rest, 0⟩ }

/-- The transport has answered the write of `x` (20_memory.md R50). -/
def answered (x : Byte) (a : Answer) (s : State) : State :=
  match a with
  | .success => advance (record (.W x) s)
  | .failure => raise .transportError x (record (.F x) s)

/-- The byte `XWrite` puts on the transport: the pending byte with the backlight merged (42_nibble_strobe.md R160). -/
def State.issued (s : State) (v : Byte) : Byte := v ||| blv s.cfg s.bl

/-- Reset (10_state.md R35, 70_reset_and_hazards.md R302): the operation ends without a response and without a write.
What the host still presents and what comes after are not the block's state and stay (log 8). -/
def takeReset (s : State) : State := { State.resetOf s.cfg with port := s.port, inputs := s.inputs.tail }

/-- The next input, where it is not the one the sequencer waits for. A presented request waits at the port (R221); time
that no delay counts passes without effect (20_memory.md R63); an answer with no write outstanding means nothing
(60_exceptions.md R271, log 4); with no input nothing changes (R274, R290, log 2). -/
def passInput (s : State) : State :=
  match s.inputs with
  | [] => s
  | .present q :: rest => { s with port := s.port ++ [q], inputs := rest }
  | .answer _ :: rest => { s with inputs := rest }
  | .elapse _ :: rest => { s with inputs := rest }
  | .reset :: _ => takeReset s

/-- A write of `x` is outstanding: nothing else happens until the transport answers (20_memory.md R50, R62). -/
def awaitAnswer (x : Byte) (s : State) : State :=
  match s.inputs with
  | .answer a :: rest => answered x a { s with inputs := rest }
  | _ => passInput s

/-- `n` more time units have passed on the delay timer. -/
def tick (n : Nat) (s : State) : State :=
  { s with seq := s.seq.map (fun q => ⟨q.op, q.todo, q.elapsed + n⟩) }

/-- The delay timer. -/
def State.elapsed (s : State) : Nat := (s.seq.map (·.elapsed)).getD 0

/-- A delay of `n` units runs: it is complete when at least `n` units have passed since it began (20_memory.md R63;
logs 5 and 9). -/
def awaitDelay (n : Nat) (s : State) : State :=
  match s.inputs with
  | .elapse m :: rest =>
    if n ≤ s.elapsed + m then advance (record (.D n) { s with inputs := rest }) else tick m { s with inputs := rest }
  | _ => passInput s

end Sys2Proof.Machine
end

