-- ==== Sys2Proof/Machine/Cgram.lean ====
section
/-! DEFINITION. `LDGLYPH` and `LDGLYPHS`: the CGRAM slot load controller (44_cgram_loader.md). -/

namespace Sys2Proof.Machine

/-- The events of `LDGLYPH`: Set-CGRAM-Address of the masked slot, then the eight rows unmasked (R201, R205). -/
def ldglyphEvents (c : Config) (slot : Byte) (bitmap : Glyph) : List Pending :=
  sendByte c (setCgramCommand c (slotAddress slot)) false ++ sendData c bitmap.rows

/-- `LDGLYPH slot, bitmap` (R201). With `STRICT_SLOT` a slot above 7 raises `InvalidSlot(slot)` before any write (R204; log
29). -/
def execLdglyph (slot : Byte) (bitmap : Glyph) (s : State) : Host.Outcome State Fault Refusal :=
  whenReady
    (fun s =>
      if s.cfg.strictSlot ∧ 7 < slot.toNat then raise .invalidSlot slot (accept (.ldglyph slot bitmap) [] s)
      else accept (.ldglyph slot bitmap) (ldglyphEvents s.cfg slot bitmap) s)
    s

/-- The events of `LDGLYPHS`: one Set-CGRAM-Address of address 0, then every row of every bitmap, in order (R202). -/
def ldglyphsEvents (c : Config) (bitmaps : List Glyph) : List Pending :=
  sendByte c (setCgramCommand c 0x00) false ++ sendData c (bitmaps.flatMap Glyph.rows)

/-- `LDGLYPHS bitmaps` (R202): all bytes are sent, however many bitmaps are given. -/
def execLdglyphs (bitmaps : List Glyph) (s : State) : Host.Outcome State Fault Refusal :=
  operate (.ldglyphs bitmaps) (ldglyphsEvents s.cfg bitmaps) s

end Sys2Proof.Machine
end

