-- ==== Sys2Proof/Machine/Command.lean ====
section
/-! DEFINITION. The command bytes of formats CMD and CMD_FIXED (30_encoding.md R84, R85). The block sends such a byte with
RS = 0 and does not inspect it; a host gives one as `WRCMD` of the byte (R107, 41_encoder.md R143), and that is its meaning
here (logs 11 and 12). -/

namespace Sys2Proof.Machine

/-- Clear-Display: `WRCMD 0x01`. -/
def execClearDisplay (s : State) : Host.Outcome State Fault Refusal := sendCommand clearDisplayByte s

/-- Return-Home: `HOME` of R107 with `x` = 0. -/
def execReturnHome (x : Bool) (s : State) : Host.Outcome State Fault Refusal := sendCommand (returnHomeByte x) s

/-- Entry-Mode-Set: `ENTRYMODE id, s` of R107. -/
def execEntryModeSet (id shift : Bool) (s : State) : Host.Outcome State Fault Refusal :=
  sendCommand (entryModeSetByte id shift) s

/-- Display-Control: `DISPCTL d, c, b` of R107. -/
def execDisplayControl (display cursor blink : Bool) (s : State) : Host.Outcome State Fault Refusal :=
  sendCommand (displayControlByte display cursor blink) s

/-- Cursor-or-Display-Shift: `SHIFT sc, rl` of R107 with `x` = 0. -/
def execCursorOrDisplayShift (sc rl : Bool) (x : BitVec 2) (s : State) : Host.Outcome State Fault Refusal :=
  sendCommand (cursorOrDisplayShiftByte sc rl x) s

/-- Function-Set: `FUNCSET dl, n, f` of R107 with `x` = 0. -/
def execFunctionSet (dl n f : Bool) (x : BitVec 2) (s : State) : Host.Outcome State Fault Refusal :=
  sendCommand (functionSetByte dl n f x) s

/-- Set-CGRAM-Address: `SETCGADDR a` of R107. -/
def execSetCgramAddress (addr : BitVec 6) (s : State) : Host.Outcome State Fault Refusal :=
  sendCommand (setCgramAddressByte addr) s

/-- Set-DDRAM-Address: `SETDDADDR a` of R107. -/
def execSetDdramAddress (addr : BitVec 7) (s : State) : Host.Outcome State Fault Refusal :=
  sendCommand (setDdramAddressByte addr) s

/-- `CMD_FUNCTION_INIT`, the byte of `INIT` step 3 (R85). -/
def execCmdFunctionInit (s : State) : Host.Outcome State Fault Refusal := sendCommand s.cfg.cmdFunctionInit s

/-- `CMD_DISPLAY_INIT`, the byte of `INIT` step 4 (R85). -/
def execCmdDisplayInit (s : State) : Host.Outcome State Fault Refusal := sendCommand s.cfg.cmdDisplayInit s

/-- `CMD_CLEAR`, the byte of `INIT` step 5 and of `CLEAR` (R85). -/
def execCmdClear (s : State) : Host.Outcome State Fault Refusal := sendCommand s.cfg.cmdClear s

/-- `CMD_ENTRY_INIT`, the byte of `INIT` step 6 (R85). -/
def execCmdEntryInit (s : State) : Host.Outcome State Fault Refusal := sendCommand s.cfg.cmdEntryInit s

/-- `CMD_HOME`, the second byte of `CLEAR` (R85). -/
def execCmdHome (s : State) : Host.Outcome State Fault Refusal := sendCommand s.cfg.cmdHome s

/-- `CMD_SHIFT_LEFT`, the byte of `SCROLLL` (R85). -/
def execCmdShiftLeft (s : State) : Host.Outcome State Fault Refusal := sendCommand s.cfg.cmdShiftLeft s

/-- `CMD_SHIFT_RIGHT`, the byte of `SCROLLR` (R85). -/
def execCmdShiftRight (s : State) : Host.Outcome State Fault Refusal := sendCommand s.cfg.cmdShiftRight s

end Sys2Proof.Machine
end

