-- ==== Sys2Proof/Machine/Cursor.lean ====
section
/-! DEFINITION. `SETCUR` and `WRSTR`: the requests that use the cursor address resolver (43_cursor_resolver.md,
45_display_ops.md R227). -/

namespace Sys2Proof.Machine

/-- `SETCUR line, col`: `SENDBYTE(0x80 | RESOLVE(line, col), 0)`; no cursor is stored (43_cursor_resolver.md R182,
10_state.md R30). -/
def execSetcur (line col : Byte) (s : State) : Host.Outcome State Fault Refusal :=
  operate (.setcur line col) (sendByte s.cfg (setDdramCommand line col) false) s

/-- The events of `WRSTR`: the cursor command, then each character as a data byte, in order (45_display_ops.md R227). -/
def wrstrEvents (c : Config) (line col : Byte) (text : List Byte) : List Pending :=
  sendByte c (setDdramCommand line col) false ++ sendData c text

/-- `WRSTR line, col, text` (45_display_ops.md R227). -/
def execWrstr (line col : Byte) (text : List Byte) (s : State) : Host.Outcome State Fault Refusal :=
  operate (.wrstr line col text) (wrstrEvents s.cfg line col text) s

end Sys2Proof.Machine
end

