-- ==== Sys2Proof/Machine/Display.lean ====
section
/-! DEFINITION. `CLEAR`, `BACKLIGHT`, `SCROLLL`, `SCROLLR`: the display operations (45_display_ops.md section 2). -/

namespace Sys2Proof.Machine

/-- The events of `CLEAR`: Clear-Display, then Return-Home, no wait between them but the strobe's own (R222). -/
def clearEvents (c : Config) : List Pending := sendByte c c.cmdClear false ++ sendByte c c.cmdHome false

/-- `CLEAR` (R222). -/
def execClear (s : State) : Host.Outcome State Fault Refusal := operate .clear (clearEvents s.cfg) s

/-- `BACKLIGHT on`: `bl <- on` and `DONE` at once; no transport write, so it cannot fail (R223, 90_conflicts.md C2; log 25). -/
def execBacklight (on : Bool) (s : State) : Host.Outcome State Fault Refusal :=
  whenReady (fun s => respond .done { accept (.backlight on) [] s with bl := on }) s

/-- `SCROLLL` (R224). -/
def execScrolll (s : State) : Host.Outcome State Fault Refusal :=
  operate .scrolll (sendByte s.cfg s.cfg.cmdShiftLeft false) s

/-- `SCROLLR` (R225). -/
def execScrollr (s : State) : Host.Outcome State Fault Refusal :=
  operate .scrollr (sendByte s.cfg s.cfg.cmdShiftRight false) s

end Sys2Proof.Machine
end

