-- ==== Sys2Proof/Machine/Encoder.lean ====
section
/-! DEFINITION. `WRCMD` and `WRDATA`, the byte-level requests of the command/data encoder (41_encoder.md). -/

namespace Sys2Proof.Machine

/-- `WRCMD byte`: `SENDBYTE(byte, 0)`; any byte is sent, none is inspected (R143, R145). -/
def execWrcmd (byte : Byte) (s : State) : Host.Outcome State Fault Refusal := sendCommand byte s

/-- `WRDATA byte`: `SENDBYTE(byte, 1)` (R144, R145). -/
def execWrdata (byte : Byte) (s : State) : Host.Outcome State Fault Refusal :=
  operate (.wrdata byte) (sendByte s.cfg byte true) s

end Sys2Proof.Machine
end

