-- ==== Sys2Proof/Machine/Init.lean ====
section
/-! DEFINITION. `INIT`, the init sequencer (40_init_sequencer.md). -/

namespace Sys2Proof.Machine

/-- The eight sends of `INIT`, each followed by its `T_INIT(k)`: four raw nibbles `0x3, 0x3, 0x3, 0x2`, then four command
bytes (R120 to R122; 90_conflicts.md C1 keeps the raw nibbles; log 23). -/
def initEvents (c : Config) : List Pending :=
  nib c 0x3 ++ [.delay c.tInit.t0]
    ++ (nib c 0x3 ++ [.delay c.tInit.t1])
    ++ (nib c 0x3 ++ [.delay c.tInit.t2])
    ++ (nib c 0x2 ++ [.delay c.tInit.t3])
    ++ (sendByte c c.cmdFunctionInit false ++ [.delay c.tInit.t4])
    ++ (sendByte c c.cmdDisplayInit false ++ [.delay c.tInit.t5])
    ++ (sendByte c c.cmdClear false ++ [.delay c.tInit.t6])
    ++ (sendByte c c.cmdEntryInit false ++ [.delay c.tInit.t7])

/-- `INIT` (R120): accepted only in `UNINIT`, where `life <- INITIALIZING`; refused in any other lifecycle state (R221).
`READY` comes with the last delay (`finish`), `FAILED` with a failed write (`raise`). -/
def execInit (s : State) : Host.Outcome State Fault Refusal :=
  if s.busy then .next s
  else if s.life = .uninit then .next (accept .init (initEvents s.cfg) { s with life := .initializing })
  else .next (refuse .notUninit s)

end Sys2Proof.Machine
end

