-- ==== Sys2Proof/Machine/Reserved.lean ====
section
/-! DEFINITION. The reserved request codes 0xB to 0xF: refused with `ILLEGAL_REQUEST`, no write, no change of any state
field, no fault recorded (30_encoding.md R103). The refusal is the response the spec gives, a next state. -/

namespace Sys2Proof.Machine

def execReservedB (s : State) : Host.Outcome State Fault Refusal := refuseIllegal s
def execReservedC (s : State) : Host.Outcome State Fault Refusal := refuseIllegal s
def execReservedD (s : State) : Host.Outcome State Fault Refusal := refuseIllegal s
def execReservedE (s : State) : Host.Outcome State Fault Refusal := refuseIllegal s
def execReservedF (s : State) : Host.Outcome State Fault Refusal := refuseIllegal s

end Sys2Proof.Machine
end

