-- ==== Sys2Proof/Machine/Transaction.lean ====
section
/-! DEFINITION. `XACT`: a transaction byte, written to the transport by `XWrite` as an event of the operation in progress
(20_memory.md R50, 30_encoding.md R81). -/

namespace Sys2Proof.Machine

/-- The byte the sequencer has put on the transport and not yet had answered, if the outstanding event is a write. -/
def State.byteOnTransport (s : State) : Option Byte :=
  match s.busy, s.outstanding with
  | true, some (.write v) => some (s.issued v)
  | _, _ => none

/-- The transaction byte with these fields is written: when the sequencer has it outstanding, the transport's answer
decides between `W` and `F` (R50). Elsewhere the block writes no byte: there is no request for a lone transaction
(42_nibble_strobe.md R166), and the model refuses by name (log 13). -/
def execXact (data : Nibble) (bl en rs : Bool) (s : State) : Host.Outcome State Fault Refusal :=
  if s.byteOnTransport = some (transactionByte s.cfg data bl en rs) then
    .next (awaitAnswer (transactionByte s.cfg data bl en rs) s)
  else .refused .noSuchWriteOutstanding

end Sys2Proof.Machine
end

