-- ==== Sys2Proof/Machine/Dispatch.lean ====
section
/-! DEFINITION. One arm per instruction, each a direct call of its meaning. -/

namespace Sys2Proof.Machine

def exec (i : Instr) (s : State) : Host.Outcome State Fault Refusal :=
  match i with
  -- requests (30_encoding.md R101)
  | .init => Sys2Proof.Machine.execInit s
  | .wrcmd byte => Sys2Proof.Machine.execWrcmd byte s
  | .wrdata byte => Sys2Proof.Machine.execWrdata byte s
  | .clear => Sys2Proof.Machine.execClear s
  | .backlight on => Sys2Proof.Machine.execBacklight on s
  | .scrolll => Sys2Proof.Machine.execScrolll s
  | .scrollr => Sys2Proof.Machine.execScrollr s
  | .setcur line col => Sys2Proof.Machine.execSetcur line col s
  | .wrstr line col text => Sys2Proof.Machine.execWrstr line col text s
  | .ldglyph slot bitmap => Sys2Proof.Machine.execLdglyph slot bitmap s
  | .ldglyphs bitmaps => Sys2Proof.Machine.execLdglyphs bitmaps s
  -- reserved request codes (R103)
  | .reservedB => Sys2Proof.Machine.execReservedB s
  | .reservedC => Sys2Proof.Machine.execReservedC s
  | .reservedD => Sys2Proof.Machine.execReservedD s
  | .reservedE => Sys2Proof.Machine.execReservedE s
  | .reservedF => Sys2Proof.Machine.execReservedF s
  -- controller command bytes (R84)
  | .clearDisplay => Sys2Proof.Machine.execClearDisplay s
  | .returnHome x => Sys2Proof.Machine.execReturnHome x s
  | .entryModeSet id shift => Sys2Proof.Machine.execEntryModeSet id shift s
  | .displayControl display cursor blink => Sys2Proof.Machine.execDisplayControl display cursor blink s
  | .cursorOrDisplayShift sc rl x => Sys2Proof.Machine.execCursorOrDisplayShift sc rl x s
  | .functionSet dl n f x => Sys2Proof.Machine.execFunctionSet dl n f x s
  | .setCgramAddress addr => Sys2Proof.Machine.execSetCgramAddress addr s
  | .setDdramAddress addr => Sys2Proof.Machine.execSetDdramAddress addr s
  -- command bytes of the configuration (R85)
  | .cmdFunctionInit => Sys2Proof.Machine.execCmdFunctionInit s
  | .cmdDisplayInit => Sys2Proof.Machine.execCmdDisplayInit s
  | .cmdClear => Sys2Proof.Machine.execCmdClear s
  | .cmdEntryInit => Sys2Proof.Machine.execCmdEntryInit s
  | .cmdHome => Sys2Proof.Machine.execCmdHome s
  | .cmdShiftLeft => Sys2Proof.Machine.execCmdShiftLeft s
  | .cmdShiftRight => Sys2Proof.Machine.execCmdShiftRight s
  -- transaction bytes (R81)
  | .xact data bl en rs => Sys2Proof.Machine.execXact data bl en rs s

end Sys2Proof.Machine
end

