-- ==== Sys2Proof/Machine/Port.lean ====
section
/-! DEFINITION. The request port (45_display_ops.md R221), the sequencer's next event, and how a table word is placed
where the next step takes it. `Step.lean` only calls these. -/

namespace Sys2Proof.Machine

/-- The block decides a presented request (R221): a word and payload that spell no request are refused with
`ILLEGAL_REQUEST`, before anything else (log 18); else the instruction is executed. -/
def decideRequest (q : Request) (s : State) : Host.Outcome State Fault Refusal :=
  match decodeRequest q.word q.payload with
  | .ok i => exec i s
  | .error _ => refuseIllegal s

/-- An idle block: the oldest request at the port is taken off it and decided; with none the block waits (60_exceptions.md
R290). -/
def decideNext (s : State) : Host.Outcome State Fault Refusal :=
  match s.port with
  | [] => .next (passInput s)
  | q :: rest => decideRequest q { s with port := rest }

/-- A busy block: the outstanding event, a write that waits for its answer or a delay that runs (10_state.md R26). -/
def performNext (s : State) : Host.Outcome State Fault Refusal :=
  match s.outstanding with
  | some (.write v) => .next (awaitAnswer (s.issued v) s)
  | some (.delay n) => .next (awaitDelay n s)
  | none => .fault .sequencerInconsistent

/-- Reset is asserted now. -/
def State.resetAsserted (s : State) : Bool := s.inputs.head? == some .reset

/-- Inputs without the resets at their head. -/
def dropResets : List Input → List Input
  | .reset :: rest => dropResets rest
  | inputs => inputs

/-- The block idle with a request first at its port (log 15). -/
def placeRequest (q : Request) (s : State) : State :=
  { s with busy := false, seq := none, port := q :: s.port, inputs := dropResets s.inputs }

/-- The sequencer at the write of a transaction byte, answered `success` next: the low-nibble strobe, or the rest of it
from the enable-low write on, of a byte whose low nibble is `data` (log 15). -/
def placeTransaction (data : Nibble) (bl en rs : Bool) (s : State) : State :=
  { s with
    busy := true
    bl := bl
    seq := some ⟨if rs then .wrdata (data.setWidth 8) else .wrcmd (data.setWidth 8),
      (strobe s.cfg (xactValue s.cfg data rs)).drop (if en then 0 else 2), 0⟩
    inputs := .answer .success :: dropResets s.inputs }

/-- The request by which the host gives an instruction of formats REQ, CMD or CMD_FIXED: a command byte goes as `WRCMD`
(30_encoding.md R107). -/
def requestOf (c : Config) (i : Instr) : Request :=
  match encode c i with
  | .req w payload => ⟨w, payload⟩
  | .cmd b | .cmdFixed b | .xact b => ⟨requestWord 0x1 b 0 0, []⟩

/-- The instruction of a table word, placed where the next step takes it; a request word keeps the bits it ignores. -/
def placeTableWord (nbits w : Nat) (s : State) : State :=
  match decodeTableWord nbits w with
  | none => s
  | some (.xact data bl en rs) => placeTransaction data bl en rs s
  | some i =>
    if nbits ≤ 8 then placeRequest (requestOf s.cfg i) s
    else placeRequest ⟨BitVec.ofNat 28 w, zeroPayload (BitVec.ofNat 28 w)⟩ s

end Sys2Proof.Machine
end

