-- ==== Sys2Proof/Machine/Step.lean ====
section
/-! DEFINITION. One step of the machine: reset pre-empts everything (60_exceptions.md R265); a busy block is at one event
of its operation (00_scope.md R8); an idle block decides the next request (log 1). -/

namespace Sys2Proof.Machine

/-- One step. -/
def step (s : State) : Host.Outcome State Fault Refusal :=
  if s.resetAsserted then .next (takeReset s)
  else if s.busy then performNext s
  else decideNext s

/-- `s` with the instruction of a table word where `step` takes its next instruction (log 15). -/
def State.withFetchWord (s : State) (nbits w : Nat) : State := placeTableWord nbits w s

end Sys2Proof.Machine
end

