-- ==== Sys2Proof/Machine/Assembler.lean ====
section
/-! DEFINITION. The pseudo-operations and the line syntax of 30_encoding.md section 7: how a program's text becomes the
requests a host presents (log 30). -/

namespace Sys2Proof.Machine

/-- The pseudo-operations of R107: names for a `WRCMD` or `WRDATA` with a computed byte; none is a request code. -/
inductive Pseudo where
  | home
  | entrymode (id s : Bool)
  | dispctl (d c b : Bool)
  | shift (sc rl : Bool)
  | funcset (dl n f : Bool)
  | setcgaddr (a : Byte)
  | setddaddr (a : Byte)
  | wrchr (c : Byte)
  | showglyph (s : Byte)
  | wrhere (text : List Byte)
  deriving DecidableEq, Repr

/-- A flag operand as a byte. -/
def flagByte (x : Bool) : Byte := if x then 1 else 0

/-- The column "Expands to" of R107. -/
def Pseudo.expand : Pseudo → List Instr
  | .home => [.wrcmd 0x02]
  | .entrymode id s => [.wrcmd (0x04 ||| flagByte id <<< 1 ||| flagByte s)]
  | .dispctl d c b => [.wrcmd (0x08 ||| flagByte d <<< 2 ||| flagByte c <<< 1 ||| flagByte b)]
  | .shift sc rl => [.wrcmd (0x10 ||| flagByte sc <<< 3 ||| flagByte rl <<< 2)]
  | .funcset dl n f => [.wrcmd (0x20 ||| flagByte dl <<< 4 ||| flagByte n <<< 3 ||| flagByte f <<< 2)]
  | .setcgaddr a => [.wrcmd (0x40 ||| (a &&& 0x3F))]
  | .setddaddr a => [.wrcmd (0x80 ||| (a &&& 0x7F))]
  | .wrchr c => [.wrdata c]
  | .showglyph s => [.wrdata (s &&& 0x07)]
  | .wrhere text => text.map .wrdata

/-! ## Lexing a line (R106) -/

/-- The tokens of a line. -/
inductive Token where
  | word (chars : List Char)
  | number (n : Nat)
  | text (codes : List Byte)
  | comma
  | opening
  | closing
  deriving DecidableEq, Repr

/-- Where the lexer stands: between tokens, inside a word or number, inside a string; characters last first. -/
inductive LexMode where
  | between
  | inWord (chars : List Char)
  | inText (chars : List Char)
  deriving DecidableEq, Repr

/-- The double quote. -/
def quoteChar : Char := Char.ofNat 34

/-- The value of a digit in a base up to 16. -/
def digitValue (base : Nat) (c : Char) : Option Nat :=
  let v :=
    if c.isDigit then c.toNat - 48
    else if 97 ≤ c.toNat ∧ c.toNat ≤ 102 then c.toNat - 87
    else if 65 ≤ c.toNat ∧ c.toNat ≤ 70 then c.toNat - 55
    else base
  if v < base then some v else none

/-- A number from its digits, first digit first. -/
def readDigits (base : Nat) (acc : Nat) : List Char → Option Nat
  | [] => some acc
  | c :: rest => (digitValue base c).bind (fun v => readDigits base (acc * base + v) rest)

/-- A word or, when it begins with a digit, a number, decimal or with `0x` hexadecimal. -/
def readWord : List Char → Option Token
  | '0' :: 'x' :: d :: rest => (readDigits 16 0 (d :: rest)).map .number
  | c :: rest => if c.isDigit then (readDigits 10 0 (c :: rest)).map .number else some (.word (c :: rest))
  | [] => none

/-- The 8-bit code of a character; a character without one is no character of a string (92_eei_decisions.md D18). -/
def charCode (c : Char) : Option Byte := if c.toNat < 256 then some (BitVec.ofNat 8 c.toNat) else none

/-- A character between tokens: the token it is, if any, and where the lexer then stands. -/
def lexBetween (c : Char) : Option (List Token × LexMode) :=
  if c = ' ' then some ([], .between)
  else if c = ',' then some ([.comma], .between)
  else if c = '[' then some ([.opening], .between)
  else if c = ']' then some ([.closing], .between)
  else if c = quoteChar then some ([], .inText [])
  else if c.isAlphanum || c == '_' then some ([], .inWord [c])
  else none

/-- The tokens of the rest of a line. -/
def lex : LexMode → List Char → Option (List Token)
  | .between, [] => some []
  | .inWord w, [] => (readWord w.reverse).map ([·])
  | .inText _, [] => none
  | .between, c :: rest =>
    if c = ';' then some []
    else (lexBetween c).bind (fun r => (lex r.2 rest).map (r.1 ++ ·))
  | .inWord w, c :: rest =>
    if c.isAlphanum || c == '_' then lex (.inWord (c :: w)) rest
    else
      (readWord w.reverse).bind (fun t =>
        if c = ';' then some [t]
        else (lexBetween c).bind (fun r => (lex r.2 rest).map (t :: r.1 ++ ·)))
  | .inText w, c :: rest =>
    if c = quoteChar then
      (w.reverse.mapM charCode).bind (fun codes => (lex .between rest).map (.text codes :: ·))
    else lex (.inText (c :: w)) rest

/-! ## Operands -/

/-- An operand of a line. -/
inductive Operand where
  | byte (b : Byte)
  | bytes (l : List Byte)
  | bitmaps (l : List (List Byte))
  deriving DecidableEq, Repr

/-- Where the operand reader stands: how many brackets are open, what is inside them, and whether an item is due (at the
start and after a comma). Items last first. -/
structure OperandState where
  operands : List Operand
  depth : Nat
  inner : List Byte
  groups : List (List Byte)
  due : Bool
  deriving DecidableEq, Repr

/-- One token of the operands. -/
def operandStep (s : OperandState) : Token → Option OperandState
  | .number n =>
    if s.due ∧ n < 256 then
      if s.depth = 0 then some { s with operands := .byte (BitVec.ofNat 8 n) :: s.operands, due := false }
      else some { s with inner := BitVec.ofNat 8 n :: s.inner, due := false }
    else none
  | .text codes => if s.due ∧ s.depth = 0 then some { s with operands := .bytes codes :: s.operands, due := false } else none
  | .comma => if s.due then none else some { s with due := true }
  | .opening =>
    if s.due ∧ s.depth < 2 ∧ s.inner = [] then some { s with depth := s.depth + 1, due := true } else none
  | .closing =>
    if s.due ∧ (s.inner ≠ [] ∨ s.depth = 1 ∧ s.groups ≠ []) then none
    else if s.depth = 2 then some { s with depth := 1, groups := s.inner.reverse :: s.groups, inner := [], due := false }
    else if s.depth = 1 ∧ s.groups = [] then
      some { s with depth := 0, operands := .bytes s.inner.reverse :: s.operands, inner := [], due := false }
    else if s.depth = 1 ∧ s.inner = [] then
      some { s with depth := 0, operands := .bitmaps s.groups.reverse :: s.operands, groups := [], due := false }
    else none
  | .word _ => none

/-- The operands of a line, first operand first. -/
def readOperands : OperandState → List Token → Option (List Operand)
  | s, [] => if s.depth = 0 ∧ (s.due = false ∨ s.operands = []) then some s.operands.reverse else none
  | s, t :: rest => (operandStep s t).bind (fun s => readOperands s rest)

/-- A flag operand, 0 or 1. -/
def readFlag (b : Byte) : Option Bool := if b = 0 then some false else if b = 1 then some true else none

/-- A bitmap of exactly eight rows. -/
def readGlyph : List Byte → Option Glyph
  | [a, b, c, d, e, f, g, h] => some ⟨a, b, c, d, e, f, g, h⟩
  | _ => none

/-- The instructions a mnemonic and its operands stand for (R101, R106, R107). -/
def assemble (mnemonic : String) (operands : List Operand) : Option (List Instr) :=
  match mnemonic, operands with
  | "INIT", [] => some [.init]
  | "WRCMD", [.byte a] => some [.wrcmd a]
  | "WRDATA", [.byte a] => some [.wrdata a]
  | "CLEAR", [] => some [.clear]
  | "BACKLIGHT", [.byte a] => some [.backlight (a.getLsbD 0)]
  | "SCROLLL", [] => some [.scrolll]
  | "SCROLLR", [] => some [.scrollr]
  | "SETCUR", [.byte a, .byte b] => some [.setcur a b]
  | "WRSTR", [.byte a, .byte b, .bytes text] => some [.wrstr a b text]
  | "LDGLYPH", [.byte a, .bytes rows] => (readGlyph rows).map (fun g => [.ldglyph a g])
  | "LDGLYPHS", [.bytes []] => some [.ldglyphs []]
  | "LDGLYPHS", [.bitmaps l] => (l.mapM readGlyph).map (fun gs => [.ldglyphs gs])
  | "HOME", [] => some (Pseudo.expand .home)
  | "ENTRYMODE", [.byte a, .byte b] =>
    (readFlag a).bind (fun id => (readFlag b).map (fun s => Pseudo.expand (.entrymode id s)))
  | "DISPCTL", [.byte a, .byte b, .byte c] =>
    (readFlag a).bind (fun d => (readFlag b).bind (fun cu => (readFlag c).map (fun bk => Pseudo.expand (.dispctl d cu bk))))
  | "SHIFT", [.byte a, .byte b] =>
    (readFlag a).bind (fun sc => (readFlag b).map (fun rl => Pseudo.expand (.shift sc rl)))
  | "FUNCSET", [.byte a, .byte b, .byte c] =>
    (readFlag a).bind (fun dl => (readFlag b).bind (fun n => (readFlag c).map (fun f => Pseudo.expand (.funcset dl n f))))
  | "SETCGADDR", [.byte a] => some (Pseudo.expand (.setcgaddr a))
  | "SETDDADDR", [.byte a] => some (Pseudo.expand (.setddaddr a))
  | "WRCHR", [.byte a] => some (Pseudo.expand (.wrchr a))
  | "SHOWGLYPH", [.byte a] => some (Pseudo.expand (.showglyph a))
  | "WRHERE", [.bytes text] => some (Pseudo.expand (.wrhere text))
  | _, _ => none

/-- Instructions that request words can spell: a payload of more than 255 characters or bitmaps has no 8-bit `len` (R100),
and the line it stands in is refused. R106 says nothing of such a line; refusing it is the model's choice (DESIGN CHOICE,
log 30). -/
def spellable (instrs : List Instr) : Option (List Instr) := if instrs.all Instr.wf then some instrs else none

/-- The instructions of one line of a program; an empty line or a comment stands for none. -/
def assembleLine (line : String) : Option (List Instr) :=
  match lex .between line.toList with
  | some [] => some []
  | some (.word m :: rest) =>
    ((readOperands ⟨[], 0, [], [], true⟩ rest).bind (assemble (String.ofList m))).bind spellable
  | _ => none

/-- The requests a program's lines stand for, in order, as the host presents them one after another. -/
def assembleProgram (c : Config) (lines : List String) : Option (List Request) :=
  (lines.mapM assembleLine).map (fun l => l.flatten.map (requestOf c))

end Sys2Proof.Machine
end

