-- ==== Sys2Proof/Machine/Memory.lean ====
section
/-! DEFINITION. Byte memories as canonical lists of cells. The block itself has no memory (10_state.md R34, 20_memory.md
R50); the reference observer of the controller holds its DDRAM and CGRAM this way (log 20). -/

namespace Sys2Proof.Machine

/-- Cells in strictly rising address order. `dflt` is what an unlisted address reads as: a byte, or nothing known. -/
abbrev Memory := List Host.Cell

/-- The canonical form: addresses strictly rising, and no cell that holds what an unlisted address reads as. -/
def Memory.wf (dflt : Option Byte) (m : Memory) : Bool :=
  decide (m.Pairwise (fun x y => x.1 < y.1)) && m.all (fun cell => some cell.2 != dflt)

/-- The byte at an address. -/
def Memory.read (dflt : Option Byte) : Memory → Nat → Option Byte
  | [], _ => dflt
  | (k, v) :: rest, a => if a = k then some v else Memory.read dflt rest a

/-- The cell list that an address and a byte put in front of `m`: none for the unlisted value. -/
def Memory.put (dflt : Option Byte) (a : Nat) (b : Byte) (m : Memory) : Memory :=
  if some b = dflt then m else (a, b) :: m

/-- A write of one byte, keeping the canonical form. -/
def Memory.write (dflt : Option Byte) : Memory → Nat → Byte → Memory
  | [], a, b => Memory.put dflt a b []
  | (k, v) :: rest, a, b =>
    if a < k then Memory.put dflt a b ((k, v) :: rest)
    else if a = k then Memory.put dflt a b rest
    else (k, v) :: Memory.write dflt rest a b

end Sys2Proof.Machine
end

