-- ==== Sys2Proof/Machine/Observer.lean ====
section
/-! DEFINITION. The reference observer of 95_test_vectors.md section 1: what a controller behind the expander would hold
after a trace. It is a function of the trace and no part of the block's state; the spec calls it non-normative and takes
it from general knowledge (PRESUMED, log 20). No meaning of an instruction reads it. -/

namespace Sys2Proof.Machine

/-- The observer's state. -/
structure Observer where
  /-- The last byte written with `success`. -/
  lines : Byte
  /-- The controller's interface is 8 bits wide. -/
  mode8 : Bool
  /-- A latched high nibble and its register-select line, waiting for the low nibble. -/
  half : Option (Nibble × Bool)
  /-- The address counter. -/
  ac : BitVec 7
  /-- The address counter points into CGRAM. -/
  inCg : Bool
  /-- DDRAM; an unlisted address holds a space. -/
  dd : Memory
  /-- CGRAM; an unlisted address holds nothing known. -/
  cg : Memory
  /-- The display shift count, to the left positive. -/
  shift : Int
  /-- The last display-control flags `D C B`, when there are any. -/
  displayFlags : Option (BitVec 3)
  /-- The last entry-mode flags `ID S`, when there are any. -/
  entryFlags : Option (BitVec 2)
  /-- Every register-select line and byte executed, oldest first. -/
  bytes : List (Bool × Byte)
  deriving DecidableEq, Repr

/-- What an unlisted DDRAM address holds: a space. -/
def ddDefault : Option Byte := some 0x20

/-- What an unlisted CGRAM address holds: the observer gives CGRAM no initial contents, so nothing is known. -/
def cgDefault : Option Byte := none

/-- The observer at power-up. 95_test_vectors.md (sections 1 and 4) gives `lines`, `mode8`, `ac` and `dd` their initial
values. DESIGN CHOICE (log 20): no half byte latched, the address counter in DDRAM, shift 0, no flags recorded and an empty
log, of which the spec says nothing; no meaning, step or obligation uses this value. -/
def Observer.powerUp : Observer where
  lines := 0x00
  mode8 := true
  half := none
  ac := 0
  inCg := false
  dd := []
  cg := []
  shift := 0
  displayFlags := none
  entryFlags := none
  bytes := []

/-- A data byte goes to the memory the address counter points into, and the counter advances. -/
def Observer.store (b : Byte) (o : Observer) : Observer :=
  if o.inCg then
    { o with cg := Memory.write cgDefault o.cg (o.ac &&& 0x3F).toNat b, ac := (o.ac + 1) &&& 0x3F }
  else
    { o with dd := Memory.write ddDefault o.dd o.ac.toNat b, ac := o.ac + 1 }

/-- A command byte, told by its highest bit set. -/
def Observer.command (b : Byte) (o : Observer) : Observer :=
  match decodeCommand b with
  | .ok (.setDdramAddress a) => { o with ac := a, inCg := false }
  | .ok (.setCgramAddress a) => { o with ac := a.setWidth 7, inCg := true }
  | .ok (.functionSet dl _ _ _) => { o with mode8 := dl, half := none }
  | .ok (.cursorOrDisplayShift sc rl _) =>
    if sc then { o with shift := if rl then o.shift - 1 else o.shift + 1 } else o
  | .ok (.displayControl d c bk) =>
    { o with displayFlags := some (BitVec.ofBool d ++ BitVec.ofBool c ++ BitVec.ofBool bk) }
  | .ok (.entryModeSet id sh) => { o with entryFlags := some (BitVec.ofBool id ++ BitVec.ofBool sh) }
  | .ok (.returnHome _) => { o with ac := 0, inCg := false, shift := 0 }
  | .ok .clearDisplay => { o with dd := [], ac := 0, inCg := false, shift := 0 }
  | _ => o

/-- `execute(b, rs)`. -/
def Observer.execute (b : Byte) (rs : Bool) (o : Observer) : Observer :=
  let o := { o with bytes := o.bytes ++ [(rs, b)] }
  if rs then o.store b else o.command b

/-- A nibble is latched: executed as the high half of a byte in 8-bit mode, else paired, high nibble first. -/
def Observer.latch (n : Nibble) (rs : Bool) (o : Observer) : Observer :=
  if o.mode8 then o.execute (n ++ 0#4) rs
  else
    match o.half with
    | none => { o with half := some (n, rs) }
    | some (hi, _) => { o.execute (hi ++ n) rs with half := none }

/-- One event: on the high-to-low edge of the enable line the lines as they stood while it was high are latched. A failed
write is taken to leave the lines unchanged; a wait is ignored. -/
def observe (c : Config) (o : Observer) : Event → Observer
  | .W x =>
    let old := o.lines
    let o := { o with lines := x }
    if lineHigh c.enMask old && !lineHigh c.enMask x then o.latch (dataField c old) (lineHigh c.rsMask old) else o
  | .F _ => o
  | .D _ => o

/-- The observer after a trace. -/
def observeAll (c : Config) (o : Observer) (trace : List Event) : Observer := trace.foldl (observe c) o

end Sys2Proof.Machine
end

