-- ==== Sys2Proof/Machine/Timing.lean ====
section
/-! DEFINITION. The waits of a trace (70_reset_and_hazards.md R321, R322) and the event lists a served operation leaves:
what an operation's events become when every write is answered `success` and every delay elapses. -/

namespace Sys2Proof.Machine

/-- The time units an event makes the sequencer wait at least. -/
def Event.wait : Event → Nat
  | .D n => n
  | .W _ | .F _ => 0

/-- The sum of the waits of a trace: a lower bound, in time units, on how long it took (R321). -/
def waitSum (trace : List Event) : Nat := (trace.map Event.wait).sum

/-- That bound as a physical time; the length of a unit is open (92_eei_decisions.md D6, log 19). -/
def minimumTime (trace : List Event) : Nat := Config.tUnit * waitSum trace

/-- The bytes of the writes of a trace, failed ones included, in order. -/
def writesOf : List Event → List Byte
  | [] => []
  | .W b :: rest => b :: writesOf rest
  | .F b :: rest => b :: writesOf rest
  | .D _ :: rest => writesOf rest

/-- The trace events of pending events that all succeed, under a backlight state. -/
def performed (c : Config) (bl : Bool) : List Pending → List Event
  | [] => []
  | .write v :: rest => .W (v ||| blv c bl) :: performed c bl rest
  | .delay n :: rest => .D n :: performed c bl rest

/-- Inputs that serve pending events from position `k` on: each write answered `success`, each delay given its time and
`late k` units more, since a delay may last longer than it must (20_memory.md R63, U19). -/
def serve (late : Nat → Nat) : Nat → List Pending → List Input
  | _, [] => []
  | k, .write _ :: rest => .answer .success :: serve late (k + 1) rest
  | k, .delay n :: rest => .elapse (n + late k) :: serve late (k + 1) rest

/-- The lines of the expander after a trace, as far as the block knows them: the last write, when it succeeded. Before the
first write and after a failed one they are unspecified (20_memory.md R50, 70_reset_and_hazards.md R301; log 21). -/
def expanderLines (trace : List Event) : Option Byte :=
  trace.foldl
    (fun lines e =>
      match e with
      | .W b => some b
      | .F _ => none
      | .D _ => lines)
    none

end Sys2Proof.Machine
end

