-- ==== Sys2Proof/Safety.lean ====
section
/-! DEFINITION. What counts as a safe state and a safe trace, in the terms claims use: the invariant of the state, the
invariant of the trace, and the events every operation expands into. -/

namespace Sys2Proof.Machine

/-- `k` steps of the machine. -/
def run (k : Nat) (s : State) : Host.Outcome State Fault Refusal := Host.Core.run Sys2Proof.core k s

/-- The list of events an operation expands into (10_state.md R26). A command byte's operation is `WRCMD`; an instruction
that is no operation with events has none. -/
def eventsOf (c : Config) : Instr → List Pending
  | .init => initEvents c
  | .wrcmd byte => sendByte c byte false
  | .wrdata byte => sendByte c byte true
  | .clear => clearEvents c
  | .backlight _ => []
  | .scrolll => sendByte c c.cmdShiftLeft false
  | .scrollr => sendByte c c.cmdShiftRight false
  | .setcur line col => sendByte c (setDdramCommand line col) false
  | .wrstr line col text => wrstrEvents c line col text
  | .ldglyph slot bitmap => ldglyphEvents c slot bitmap
  | .ldglyphs bitmaps => ldglyphsEvents c bitmaps
  | .reservedB | .reservedC | .reservedD | .reservedE | .reservedF => []
  | .clearDisplay | .returnHome _ | .entryModeSet _ _ | .displayControl _ _ _ | .cursorOrDisplayShift _ _ _ => []
  | .functionSet _ _ _ _ | .setCgramAddress _ | .setDdramAddress _ => []
  | .cmdFunctionInit | .cmdDisplayInit | .cmdClear | .cmdEntryInit | .cmdHome | .cmdShiftLeft | .cmdShiftRight => []
  | .xact _ _ _ _ => []

/-- `seq_pc`: the index of the next event of the operation in progress (10_state.md R26); none when idle. -/
def State.seqPc (s : State) : Option Nat :=
  s.seq.map (fun q => (eventsOf s.cfg q.op).length - q.todo.length)

/-- A block that can accept an operation: idle and `READY` (45_display_ops.md R221). -/
def State.Ready (s : State) : Prop := s.busy = false ∧ s.life = .ready

/-- Operation `op` with the given events is accepted by `exec i` and runs to its end: `exec` answers the state with the
operation in progress at position 0; from there, with every write answered `success` and every delay ended, however late,
one step per event gives the state with the events in the trace, the response `DONE`, and nothing else changed. -/
def Completes (i op : Instr) (events : List Pending) (s : State) : Prop :=
  exec i s = .next { s with busy := true, seq := some ⟨op, events, 0⟩ } ∧
  ∀ late rest, s.inputs = serve late 0 events ++ rest →
    run events.length { s with busy := true, seq := some ⟨op, events, 0⟩ } =
      .next { s with
        busy := false
        seq := none
        inputs := rest
        trace := s.trace ++ performed s.cfg s.bl events
        responses := s.responses ++ [.done] }

/-- The delay timer belongs to the outstanding delay: it has not reached it, or nothing has passed. -/
def timerOk (q : SeqState) : Prop :=
  q.elapsed = 0 ∨ ∃ n rest, q.todo = .delay n :: rest ∧ q.elapsed < n

/-- The invariant of the state. It rules out the states no run reaches: an operation in progress exactly while `busy`, at
a position inside its own event list (R24, R26); `INITIALIZING` exactly during `INIT` and `READY` during every other
operation (45_display_ops.md R220, R221); `FAILED` exactly when the recorded fault is `INIT`, nothing recorded before
`INIT` has ended, `fault_byte` zero until something is (60_exceptions.md R264, R266). -/
structure StateInv (s : State) : Prop where
  config : s.cfg.wf = true
  busyIffSeq : s.busy = s.seq.isSome
  position : ∀ q, s.seq = some q → q.todo ≠ [] ∧ q.todo <:+ eventsOf s.cfg q.op ∧ q.op.wf = true
  timer : ∀ q, s.seq = some q → timerOk q
  initializing : s.life = .initializing ↔ s.running = some .init
  ready : ∀ i, s.running = some i → i ≠ .init → s.life = .ready
  failed : s.life = .failed ↔ s.fault = .init
  nothingYet : s.life = .uninit ∨ s.life = .initializing → s.fault = .none
  noByte : s.fault = .none → s.faultByte = 0x00
  slotFault : s.fault = .invalidSlot → s.cfg.strictSlot = true

/-- A trace without a failed write. -/
def faultFree (trace : List Event) : Prop := ∀ b, Event.F b ∉ trace

/-- Bytes in pairs of an enable pulse: the first with EN high, the second the same byte with EN low
(42_nibble_strobe.md R162). -/
def pulses (c : Config) : List Byte → Prop
  | [] => True
  | [_] => False
  | a :: b :: rest => lineHigh c.enMask a = true ∧ b = a &&& ~~~c.enMask ∧ pulses c rest

/-- The bytes the operation in progress has still to write, as they will be issued. -/
def State.bytesToCome (s : State) : List Byte :=
  match s.seq with
  | none => []
  | some q => writesOf (performed s.cfg s.bl q.todo)

/-- The invariant of the trace: the read/write line is low in every write (42_nibble_strobe.md R164), and without a
failure the writes done and to come are enable pulses (R162). -/
structure TraceInv (s : State) : Prop where
  readWriteLow : ∀ b ∈ writesOf s.trace, lineHigh s.cfg.rwMask b = false
  pulsed : faultFree s.trace → pulses s.cfg (writesOf s.trace ++ s.bytesToCome)

end Sys2Proof.Machine
end

