-- ==== Sys2Proof/Certificates/Slice0/Obligations.lean ====
section
/-! DEFINITION. The statements for the provers. Each docstring names the rules of spec/ it rests on. A trace of a fault-free
operation is written through `performed`, whose meaning `OperationRunsToDone` ties to the machine's steps. -/

open Sys2Proof Sys2Proof.Machine

/-! ## Encodings -/

/-- Decoding an encoded well-formed instruction gives it back, in every well-formed configuration (30_encoding.md R81, R84,
R85, R100 to R103). The premise `fixedDistinct` is the model's (log 12): two equal CMD_FIXED parameters have one byte. -/
def Obligations.DecodeEncodeRoundTrip : Prop :=
  ∀ (c : Config) (i : Instr), c.wf = true → c.fixedDistinct = true → i.wf = true → decode c (encode c i) = .ok i

/-- The other direction for the three byte formats: a byte that decodes is the encoding of what it decodes to, and the
bytes rejected are exactly `0x00` (CMD), a byte that is no fixed command (CMD_FIXED) and one with the read/write line
high (XACT) (R81, R84, R85, R104). -/
def Obligations.ByteFormatsEncodeDecode : Prop :=
  ∀ (c : Config) (b : Byte), c.wf = true →
    (∀ i, decode c (.cmd b) = .ok i → encode c i = .cmd b) ∧
    (∀ i, decode c (.cmdFixed b) = .ok i → encode c i = .cmdFixed b) ∧
    (∀ i, decode c (.xact b) = .ok i → encode c i = .xact b) ∧
    ((∀ i, decode c (.cmd b) ≠ .ok i) ↔ b = 0x00) ∧
    ((∀ i, decode c (.cmdFixed b) ≠ .ok i) ↔
      b ∉ [c.cmdFunctionInit, c.cmdDisplayInit, c.cmdClear, c.cmdEntryInit, c.cmdHome, c.cmdShiftLeft,
        c.cmdShiftRight]) ∧
    ((∀ i, decode c (.xact b) ≠ .ok i) ↔ b &&& c.rwMask ≠ 0)

/-- The opcode map of 30_encoding.md R101, with the unused fields of each operation at any value (R100), the payload of the
length R102 tells, and a reserved code with any payload (R103). -/
def Obligations.OpcodeMapIgnoresUnusedFields : Prop :=
  ∀ (a b len : Byte) (text payload : List Byte) (g : Glyph) (gs : List Glyph),
    text.length ≤ 255 → gs.length ≤ 255 →
    decodeRequest (requestWord 0x0 a b len) [] = .ok .init ∧
    decodeRequest (requestWord 0x1 a b len) [] = .ok (.wrcmd a) ∧
    decodeRequest (requestWord 0x2 a b len) [] = .ok (.wrdata a) ∧
    decodeRequest (requestWord 0x3 a b len) [] = .ok .clear ∧
    decodeRequest (requestWord 0x4 a b len) [] = .ok (.backlight (a.getLsbD 0)) ∧
    decodeRequest (requestWord 0x5 a b len) [] = .ok .scrolll ∧
    decodeRequest (requestWord 0x6 a b len) [] = .ok .scrollr ∧
    decodeRequest (requestWord 0x7 a b len) [] = .ok (.setcur a b) ∧
    decodeRequest (requestWord 0x8 a b (BitVec.ofNat 8 text.length)) text = .ok (.wrstr a b text) ∧
    decodeRequest (requestWord 0x9 a b len) g.rows = .ok (.ldglyph a g) ∧
    decodeRequest (requestWord 0xA a b (BitVec.ofNat 8 gs.length)) (gs.flatMap Glyph.rows) = .ok (.ldglyphs gs) ∧
    decodeRequest (requestWord 0xB a b len) payload = .ok .reservedB ∧
    decodeRequest (requestWord 0xC a b len) payload = .ok .reservedC ∧
    decodeRequest (requestWord 0xD a b len) payload = .ok .reservedD ∧
    decodeRequest (requestWord 0xE a b len) payload = .ok .reservedE ∧
    decodeRequest (requestWord 0xF a b len) payload = .ok .reservedF

/-- The opcode table is unambiguous within each format, and the decoder gives an instruction only for a word that has the
bits of the instruction's row (opcode_table.json; R84, R101). -/
def Obligations.DecoderFollowsOpcodeTable : Prop :=
  (∀ (i j : Instr) (w : RequestWord), (tableRow i).format = (tableRow j).format → (tableRow i).accepts w = true →
    (tableRow j).accepts w = true → tableRow i = tableRow j) ∧
  (∀ (c : Config) (code : Code) (i : Instr), decode c code = .ok i → (tableRow i).format = code.format) ∧
  (∀ (code : Code) (i : Instr), decode Config.default code = .ok i → (tableRow i).accepts code.word = true)

/-- Words written out in 95_test_vectors.md sections 3 and 4 and bytes of 30_encoding.md R84, R85 and 41_encoder.md R143
decode to the instructions they stand for: at least one of every family. -/
def Obligations.SpecWordsDecode : Prop :=
  decodeRequest 0x0000000 [] = .ok .init ∧
  decodeRequest 0x10C0000 [] = .ok (.wrcmd 0x0C) ∧
  decodeRequest 0x2410000 [] = .ok (.wrdata 0x41) ∧
  decodeRequest 0x241FFFF [] = .ok (.wrdata 0x41) ∧
  decodeRequest 0x3000000 [] = .ok .clear ∧
  decodeRequest 0x4010000 [] = .ok (.backlight true) ∧
  decodeRequest 0x4FE0000 [] = .ok (.backlight false) ∧
  decodeRequest 0x7020500 [] = .ok (.setcur 2 5) ∧
  decodeRequest 0x8020502 [0x41, 0x42] = .ok (.wrstr 2 5 [0x41, 0x42]) ∧
  decodeRequest 0x9090000 [0x00, 0x0A, 0x1F, 0x1F, 0x0E, 0x04, 0x00, 0x00] =
    .ok (.ldglyph 9 ⟨0x00, 0x0A, 0x1F, 0x1F, 0x0E, 0x04, 0x00, 0x00⟩) ∧
  decodeRequest 0xA000000 [] = .ok (.ldglyphs []) ∧
  decodeRequest 0xF123456 [] = .ok .reservedF ∧
  decodeCommand 0x0C = .ok (.displayControl true false false) ∧
  decodeCommand 0x28 = .ok (.functionSet false true false 0) ∧
  decodeFixed Config.default 0x1C = .ok .cmdShiftRight ∧
  decodeTransaction Config.default 0x4D = .ok (.xact 0x4 true true true)

/-! ## Micro-operations -/

/-- 30_encoding.md R82: the transaction value is the nibble in the data field with RS; its RW, EN and BL fields are 0; with
the default layout it is `{nib, 0, 0, 0, rs}`. -/
def Obligations.TransactionValueFields : Prop :=
  (∀ (c : Config) (nib : Nibble) (rs : Bool), c.wf = true →
    xactValue c nib rs = ((nib.setWidth 8 <<< c.dataLsb) ||| (if rs = true then c.rsMask else 0x00)) ∧
    dataField c (xactValue c nib rs) = nib ∧
    lineHigh c.rsMask (xactValue c nib rs) = rs ∧
    lineHigh c.rwMask (xactValue c nib rs) = false ∧
    lineHigh c.enMask (xactValue c nib rs) = false ∧
    lineHigh c.blMask (xactValue c nib rs) = false) ∧
  (∀ (nib : Nibble) (rs : Bool), xactValue Config.default nib rs = nib ++ 0b000#3 ++ BitVec.ofBool rs) ∧
  xactValue Config.default 0x3 false = 0x30 ∧ xactValue Config.default 0x4 true = 0x41 ∧
  xactValue Config.default 0xF true = 0xF1 ∧ xactValue Config.default 0x0 false = 0x00

/-- 30_encoding.md R83: the enable-high byte `v | EN_MASK | BLV` and the enable-low byte `(v & ~EN_MASK) | BLV`, which is
`v | BLV`; they differ in the EN bit and in nothing else. -/
def Obligations.StrobeBytesDifferInEnable : Prop :=
  (∀ (c : Config) (nib : Nibble) (rs bl : Bool), c.wf = true →
    performed c bl (strobe c (xactValue c nib rs)) =
      [.W (xactValue c nib rs ||| c.enMask ||| (if bl = true then c.blMask else 0x00)), .D 5,
       .W ((xactValue c nib rs &&& ~~~c.enMask) ||| (if bl = true then c.blMask else 0x00)), .D 1] ∧
    ((xactValue c nib rs &&& ~~~c.enMask) ||| blv c bl) = (xactValue c nib rs ||| blv c bl) ∧
    ((xactValue c nib rs ||| c.enMask ||| blv c bl) ^^^ (xactValue c nib rs ||| blv c bl)) = c.enMask) ∧
  performed Config.default true (strobe Config.default 0x30) = [.W 0x3C, .D 5, .W 0x38, .D 1] ∧
  performed Config.default false (strobe Config.default 0x30) = [.W 0x34, .D 5, .W 0x30, .D 1]

/-- 30_encoding.md R88: `hi = b[7:4]`, `lo = b[3:0]`, `b = {hi, lo} = hi*16 + lo`. -/
def Obligations.NibblesReassembleByte : Prop :=
  ∀ b : Byte, hiNibble b = b.extractLsb' 4 4 ∧ loNibble b = b.extractLsb' 0 4 ∧ hiNibble b ++ loNibble b = b ∧
    (hiNibble b).toNat * 16 + (loNibble b).toNat = b.toNat

/-- 41_encoder.md R141: (a) round trip, high nibble first (20_memory.md R52), (b) the same RS in both, (c) RW, EN and BL
low in both, (d) injective, (e) the encodings of `0x12` and `0x21` are each other's pairs reversed. -/
def Obligations.EncoderProperties : Prop :=
  ∀ (c : Config), c.wf = true →
    (∀ (b : Byte) (rs : Bool),
      dataField c (encodeByte c b rs).1 ++ dataField c (encodeByte c b rs).2 = b ∧
      (∀ v, v = (encodeByte c b rs).1 ∨ v = (encodeByte c b rs).2 →
        lineHigh c.rsMask v = rs ∧ lineHigh c.rwMask v = false ∧ lineHigh c.enMask v = false ∧
        lineHigh c.blMask v = false)) ∧
    (∀ (b b' : Byte) (rs rs' : Bool), encodeByte c b rs = encodeByte c b' rs' → b = b' ∧ rs = rs') ∧
    (∀ rs : Bool, encodeByte c 0x12 rs = ((encodeByte c 0x21 rs).2, (encodeByte c 0x21 rs).1))

/-- The traces of `SENDBYTE` (41_encoder.md R142), `NIB` (42_nibble_strobe.md R166) and `STROBE` (R160), every write
answered `success`, and their waits. -/
def Obligations.MicroOperationTraces : Prop :=
  ∀ (c : Config) (bl rs : Bool) (b : Byte) (n : Nibble), c.wf = true →
    performed c bl (sendByte c b rs) =
      [.W (xactValue c (b.extractLsb' 4 4) rs ||| c.enMask ||| blv c bl), .D 5,
       .W (xactValue c (b.extractLsb' 4 4) rs ||| blv c bl), .D 1,
       .W (xactValue c (b.extractLsb' 0 4) rs ||| c.enMask ||| blv c bl), .D 5,
       .W (xactValue c (b.extractLsb' 0 4) rs ||| blv c bl), .D 1] ∧
    performed c bl (nib c n) =
      [.W (xactValue c n false ||| c.enMask ||| blv c bl), .D 5, .W (xactValue c n false ||| blv c bl), .D 1] ∧
    waitSum (performed c bl (sendByte c b rs)) = 12 ∧ waitSum (performed c bl (nib c n)) = 6

/-- `LINE_BASE` and `RESOLVE` (43_cursor_resolver.md R180, R181): the table with its fallback, the sum taken mod 128, the
sum itself for every column to 43 (S2 of 95_test_vectors.md), and rows of the table of R183. -/
def Obligations.ResolvedAddress : Prop :=
  (lineBase 1 = 0x00 ∧ lineBase 2 = 0x40 ∧ lineBase 3 = 0x14 ∧ lineBase 4 = 0x54) ∧
  (∀ line : Byte, line ∉ [1, 2, 3, 4] → lineBase line = 0x00) ∧
  (∀ line col : Byte, (resolve line col).toNat = (lineBase line + col.toNat) % 128) ∧
  (∀ line col : Byte, col.toNat ≤ 43 → (resolve line col).toNat = (resolve line 0).toNat + col.toNat) ∧
  resolve 4 43 = 0x7F ∧ resolve 4 44 = 0x00 ∧ resolve 4 255 = 0x53 ∧ resolve 255 0 = 0x00

/-- The Set-DDRAM-Address command byte (30_encoding.md R86): its high bit is set for every operand pair, its low seven bits
are the resolved address, and it decodes to no other command. -/
def Obligations.CursorCommandIsSetDdram : Prop :=
  ∀ line col : Byte,
    (setDdramCommand line col).getLsbD 7 = true ∧
    (setDdramCommand line col).extractLsb' 0 7 = resolve line col ∧
    decodeCommand (setDdramCommand line col) = .ok (.setDdramAddress (resolve line col))

/-- 30_encoding.md R87: `addr6 = (slot & 0x07) * 8` for `LDGLYPH`, a value in {0, 8, ..., 56}, and 0 for `LDGLYPHS`; the
command byte is `CGRAM_SET | addr6` and is what the operation sends first; `slot & 0x07 = slot mod 8`. -/
def Obligations.SlotAddressing : Prop :=
  (∀ slot : Byte, (slotAddress slot).toNat = (slot.toNat % 8) * 8 ∧ (slot &&& 0x07).toNat = slot.toNat % 8 ∧
    slotAddress slot ∈ ([0, 8, 16, 24, 32, 40, 48, 56] : List Byte) ∧
    setCgramCommand Config.default (slotAddress slot) ∈
      ([0x40, 0x48, 0x50, 0x58, 0x60, 0x68, 0x70, 0x78] : List Byte)) ∧
  setCgramCommand Config.default 0x00 = 0x40 ∧
  (∀ (c : Config) (slot : Byte) (g : Glyph),
    ldglyphEvents c slot g = sendByte c (c.cgramSet ||| slotAddress slot) false ++ sendData c g.rows) ∧
  (∀ (c : Config) (gs : List Glyph),
    ldglyphsEvents c gs = sendByte c (c.cgramSet ||| 0x00) false ++ sendData c (gs.flatMap Glyph.rows))

/-- The sizes of 45_display_ops.md R230: writes and waits of every operation, fault-free. -/
def Obligations.OperationSizes : Prop :=
  ∀ (c : Config) (bl : Bool) (byte line col slot : Byte) (text : List Byte) (g : Glyph) (gs : List Glyph),
    (∀ i n w, (i, n, w) ∈
        [(Instr.wrcmd byte, 4, 12), (.wrdata byte, 4, 12), (.clear, 8, 24), (.backlight bl, 0, 0), (.scrolll, 4, 12),
         (.scrollr, 4, 12), (.setcur line col, 4, 12), (.wrstr line col text, 4 + 4 * text.length, 12 + 12 * text.length),
         (.ldglyph slot g, 36, 108), (.ldglyphs gs, 4 + 32 * gs.length, 12 + 96 * gs.length)] →
      (writesOf (performed c bl (eventsOf c i))).length = n ∧ waitSum (performed c bl (eventsOf c i)) = w) ∧
    (writesOf (performed c bl (eventsOf c .init))).length = 24 ∧
    waitSum (performed c bl (eventsOf c .init)) =
      72 + (c.tInit.t0 + c.tInit.t1 + c.tInit.t2 + c.tInit.t3 + c.tInit.t4 + c.tInit.t5 + c.tInit.t6 + c.tInit.t7)

/-- The worked example of 40_init_sequencer.md R126: the whole trace of a successful `INIT`, default configuration. The
preamble is raw nibbles (90_conflicts.md C1, log 23); the byte values and waits are the defaults of log 6. -/
def Obligations.InitTraceInDefaultConfiguration : Prop :=
  performed Config.default true (initEvents Config.default) = List.flatten
    ([[.W 0x3C, .D 5, .W 0x38, .D 1, .D 20], [.W 0x3C, .D 5, .W 0x38, .D 1, .D 20],
      [.W 0x3C, .D 5, .W 0x38, .D 1, .D 20], [.W 0x2C, .D 5, .W 0x28, .D 1, .D 20],
      [.W 0x2C, .D 5, .W 0x28, .D 1, .W 0x8C, .D 5, .W 0x88, .D 1, .D 20],
      [.W 0x0C, .D 5, .W 0x08, .D 1, .W 0xCC, .D 5, .W 0xC8, .D 1, .D 20],
      [.W 0x0C, .D 5, .W 0x08, .D 1, .W 0x1C, .D 5, .W 0x18, .D 1, .D 20],
      [.W 0x0C, .D 5, .W 0x08, .D 1, .W 0x6C, .D 5, .W 0x68, .D 1, .D 20]] : List (List Event)) ∧
  writesOf (performed Config.default false (initEvents Config.default)) =
    [0x34, 0x30, 0x34, 0x30, 0x34, 0x30, 0x24, 0x20, 0x24, 0x20, 0x84, 0x80, 0x04, 0x00, 0xC4, 0xC0, 0x04, 0x00, 0x14,
     0x10, 0x04, 0x00, 0x64, 0x60] ∧
  waitSum (performed Config.default true (initEvents Config.default)) = 232

/-- The pseudo-operations of 30_encoding.md R107 are the command bytes of R84 with the ignored bits 0, given by `WRCMD`,
and data bytes given by `WRDATA`. -/
def Obligations.PseudoOperationBytes : Prop :=
  ∀ (p q r : Bool) (a : Byte) (text : List Byte),
    Pseudo.expand .home = [.wrcmd (returnHomeByte false)] ∧
    Pseudo.expand (.entrymode p q) = [.wrcmd (entryModeSetByte p q)] ∧
    Pseudo.expand (.dispctl p q r) = [.wrcmd (displayControlByte p q r)] ∧
    Pseudo.expand (.shift p q) = [.wrcmd (cursorOrDisplayShiftByte p q 0)] ∧
    Pseudo.expand (.funcset p q r) = [.wrcmd (functionSetByte p q r 0)] ∧
    Pseudo.expand (.setcgaddr a) = [.wrcmd (setCgramAddressByte (a.setWidth 6))] ∧
    Pseudo.expand (.setddaddr a) = [.wrcmd (setDdramAddressByte (a.setWidth 7))] ∧
    Pseudo.expand (.wrchr a) = [.wrdata a] ∧
    Pseudo.expand (.showglyph a) = [.wrdata (BitVec.ofNat 8 (a.toNat % 8))] ∧
    Pseudo.expand (.wrhere text) = text.map .wrdata

/-! ## What each instruction does -/

/-- `INIT` from `UNINIT` (40_init_sequencer.md R120 to R122, R124): in every configuration its events are the raw nibbles
`0x3, 0x3, 0x3, 0x2` and the four command bytes, each send followed by its `T_INIT(k)` (log 23); it is accepted into
`INITIALIZING`, and after its events the block is `READY` with `DONE`; nothing else changes. -/
def Obligations.InitCompletes : Prop :=
  ∀ s : State, s.busy = false → s.life = .uninit →
    initEvents s.cfg = List.flatten
      ([nib s.cfg 0x3, [.delay s.cfg.tInit.t0], nib s.cfg 0x3, [.delay s.cfg.tInit.t1],
        nib s.cfg 0x3, [.delay s.cfg.tInit.t2], nib s.cfg 0x2, [.delay s.cfg.tInit.t3],
        sendByte s.cfg s.cfg.cmdFunctionInit false, [.delay s.cfg.tInit.t4],
        sendByte s.cfg s.cfg.cmdDisplayInit false, [.delay s.cfg.tInit.t5],
        sendByte s.cfg s.cfg.cmdClear false, [.delay s.cfg.tInit.t6],
        sendByte s.cfg s.cfg.cmdEntryInit false, [.delay s.cfg.tInit.t7]] : List (List Pending)) ∧
    exec .init s =
      .next { s with life := .initializing, busy := true, seq := some ⟨.init, initEvents s.cfg, 0⟩ } ∧
    ∀ late rest, s.inputs = serve late 0 (initEvents s.cfg) ++ rest →
      run (initEvents s.cfg).length
          { s with life := .initializing, busy := true, seq := some ⟨.init, initEvents s.cfg, 0⟩ } =
        .next { s with
          life := .ready
          busy := false
          seq := none
          inputs := rest
          trace := s.trace ++ performed s.cfg s.bl (initEvents s.cfg)
          responses := s.responses ++ [.done] }

/-- `WRCMD` and `WRDATA` (41_encoder.md R143, R144): any byte is accepted in `READY` and sent with RS = 0 or RS = 1. -/
def Obligations.ByteRequestsComplete : Prop :=
  ∀ (s : State) (byte : Byte), s.Ready →
    Completes (.wrcmd byte) (.wrcmd byte) (sendByte s.cfg byte false) s ∧
    Completes (.wrdata byte) (.wrdata byte) (sendByte s.cfg byte true) s

/-- `CLEAR`, `SCROLLL`, `SCROLLR` (45_display_ops.md R222, R224, R225). -/
def Obligations.ClearAndScrollsComplete : Prop :=
  ∀ s : State, s.Ready →
    Completes .clear .clear (sendByte s.cfg s.cfg.cmdClear false ++ sendByte s.cfg s.cfg.cmdHome false) s ∧
    Completes .scrolll .scrolll (sendByte s.cfg s.cfg.cmdShiftLeft false) s ∧
    Completes .scrollr .scrollr (sendByte s.cfg s.cfg.cmdShiftRight false) s

/-- `BACKLIGHT` (45_display_ops.md R223): `bl` is set, `DONE` is given, nothing is written and nothing else changes.
That acceptance and response are one step is log 25. -/
def Obligations.BacklightCompletes : Prop :=
  ∀ (s : State) (on : Bool), s.Ready →
    exec (.backlight on) s = .next { s with bl := on, seq := none, responses := s.responses ++ [.done] }

/-- `SETCUR` (43_cursor_resolver.md R182) and `WRSTR` (45_display_ops.md R227): the Set-DDRAM-Address command of the
resolved position, then each character as a data byte in order; an empty string is as `SETCUR`. -/
def Obligations.CursorRequestsComplete : Prop :=
  ∀ (s : State) (line col : Byte) (text : List Byte), s.Ready →
    Completes (.setcur line col) (.setcur line col)
      (sendByte s.cfg (0x80 ||| (resolve line col).setWidth 8) false) s ∧
    Completes (.wrstr line col text) (.wrstr line col text)
      (sendByte s.cfg (0x80 ||| (resolve line col).setWidth 8) false ++
        text.flatMap (fun ch => sendByte s.cfg ch true)) s

/-- `LDGLYPH` with a slot the configuration admits (44_cgram_loader.md R200, R201) and `LDGLYPHS` with any number of
bitmaps (R202): the Set-CGRAM-Address command, then every row unmasked, in order. -/
def Obligations.GlyphRequestsComplete : Prop :=
  ∀ (s : State) (slot : Byte) (g : Glyph) (gs : List Glyph), s.Ready →
    (s.cfg.strictSlot = false ∨ slot.toNat ≤ 7 →
      Completes (.ldglyph slot g) (.ldglyph slot g)
        (sendByte s.cfg (s.cfg.cgramSet ||| (slot &&& 0x07) * 8) false ++
          g.rows.flatMap (fun r => sendByte s.cfg r true)) s) ∧
    Completes (.ldglyphs gs) (.ldglyphs gs)
      (sendByte s.cfg (s.cfg.cgramSet ||| 0x00) false ++
        (gs.flatMap Glyph.rows).flatMap (fun r => sendByte s.cfg r true)) s

/-- The strict variant (44_cgram_loader.md R204): no event, the fault recorded if it is the first, `life` still `READY`,
`ERROR(InvalidSlot)`. That acceptance, fault and response are one step is log 29. -/
def Obligations.StrictSlotFaults : Prop :=
  ∀ (s : State) (slot : Byte) (g : Glyph), s.Ready → s.cfg.strictSlot = true → 7 < slot.toNat →
    exec (.ldglyph slot g) s =
      .next { s with
        seq := none
        fault := if s.fault = .none then .invalidSlot else s.fault
        faultByte := if s.fault = .none then slot else s.faultByte
        responses := s.responses ++ [.error .invalidSlot] }

/-- Reserved request codes (30_encoding.md R103): `REFUSED(ILLEGAL_REQUEST)` in every lifecycle state, no write, no field
changed, no fault recorded. -/
def Obligations.ReservedCodesRefused : Prop :=
  ∀ (s : State) (i : Instr), s.busy = false →
    i ∈ [Instr.reservedB, .reservedC, .reservedD, .reservedE, .reservedF] →
    exec i s = .next { s with responses := s.responses ++ [.refused .illegalRequest] }

/-- A command byte of format CMD (30_encoding.md R84), given by the host as `WRCMD` of the byte its bits spell (R107; the
meaning is log 11): accepted in `READY` and sent with RS = 0. -/
def Obligations.CommandBytesComplete : Prop :=
  ∀ (s : State) (p q r : Bool) (x : BitVec 2) (cg : BitVec 6) (dd : BitVec 7) (i : Instr) (b : Byte), s.Ready →
    (i, b) ∈
      [(Instr.clearDisplay, (0b00000001#8 : Byte)),
       (.returnHome p, (0b0000001#7 ++ BitVec.ofBool p : Byte)),
       (.entryModeSet p q, (0b000001#6 ++ BitVec.ofBool p ++ BitVec.ofBool q : Byte)),
       (.displayControl p q r, (0b00001#5 ++ BitVec.ofBool p ++ BitVec.ofBool q ++ BitVec.ofBool r : Byte)),
       (.cursorOrDisplayShift p q x, (0b0001#4 ++ BitVec.ofBool p ++ BitVec.ofBool q ++ x : Byte)),
       (.functionSet p q r x, (0b001#3 ++ BitVec.ofBool p ++ BitVec.ofBool q ++ BitVec.ofBool r ++ x : Byte)),
       (.setCgramAddress cg, (0b01#2 ++ cg : Byte)),
       (.setDdramAddress dd, (0b1#1 ++ dd : Byte))] →
    Completes i (.wrcmd b) (sendByte s.cfg b false) s

/-- A command byte of format CMD_FIXED (30_encoding.md R85): the value the configuration gives it is sent with RS = 0
(the meaning is log 12). -/
def Obligations.FixedCommandsComplete : Prop :=
  ∀ (s : State) (i : Instr) (b : Byte), s.Ready →
    (i, b) ∈
      [(Instr.cmdFunctionInit, s.cfg.cmdFunctionInit), (.cmdDisplayInit, s.cfg.cmdDisplayInit),
       (.cmdClear, s.cfg.cmdClear), (.cmdEntryInit, s.cfg.cmdEntryInit), (.cmdHome, s.cfg.cmdHome),
       (.cmdShiftLeft, s.cfg.cmdShiftLeft), (.cmdShiftRight, s.cfg.cmdShiftRight)] →
    Completes i (.wrcmd b) (sendByte s.cfg b false) s

/-- A transaction byte (30_encoding.md R81) that the sequencer has on the transport (20_memory.md R50): answered
`success`, it is a `W` of the trace and the position advances. That executing XACT is the outstanding write of its byte, and
that the model refuses by name where no such byte is outstanding, is the model's (log 13); that with no input the waiting
block steps to itself is the model's own step (log 2), which 60_exceptions.md R274 asks to be marked so. -/
def Obligations.TransactionWritten : Prop :=
  ∀ (s : State) (data : Nibble) (bl en rs : Bool) (op : Instr) (v : Byte) (p : Pending) (todo : List Pending)
    (t : Nat) (rest : List Input),
    (s.busy = true → s.seq = some ⟨op, .write v :: p :: todo, t⟩ →
      transactionByte s.cfg data bl en rs = v ||| blv s.cfg s.bl →
      (s.inputs = .answer .success :: rest →
        exec (.xact data bl en rs) s =
          .next { s with
            trace := s.trace ++ [.W (transactionByte s.cfg data bl en rs)]
            seq := some ⟨op, p :: todo, 0⟩
            inputs := rest }) ∧
      (s.inputs = [] → exec (.xact data bl en rs) s = .next s)) ∧
    (s.byteOnTransport ≠ some (transactionByte s.cfg data bl en rs) →
      exec (.xact data bl en rs) s = .refused .noSuchWriteOutstanding)

/-! ## Acceptance and refusal -/

/-- Refusal by lifecycle state (45_display_ops.md R221, 60_exceptions.md R272): `INIT` outside `UNINIT` and every other
operation outside `READY` is refused with its reason and changes no field. For a command byte of format CMD or CMD_FIXED
this rests on the model's reading of it as `WRCMD` (logs 11 and 12). -/
def Obligations.LifecycleRefusals : Prop :=
  ∀ (s : State) (i : Instr), s.busy = false →
    (s.life ≠ .uninit → exec .init s = .next { s with responses := s.responses ++ [.refused .notUninit] }) ∧
    (s.life ≠ .ready → i ≠ .init → (tableRow i).format ≠ .xact →
      i ∉ [Instr.reservedB, .reservedC, .reservedD, .reservedE, .reservedF] →
      exec i s = .next { s with responses := s.responses ++ [.refused .notReady] })

/-- While `busy = 1` no request is decided (45_display_ops.md R221, U7): an instruction of another format than XACT changes
nothing (log 16), and a request presented to a busy block goes to the port and waits there, behind those that wait already
(log 3). -/
def Obligations.BusyBlockDecidesNothing : Prop :=
  (∀ (s : State) (i : Instr), s.busy = true → (tableRow i).format ≠ .xact → exec i s = .next s) ∧
  (∀ (s : State) (q : Request) (rest : List Input), StateInv s → s.busy = true → s.inputs = .present q :: rest →
    step s = .next { s with port := s.port ++ [q], inputs := rest })

/-- A word and payload that spell no request are refused with `ILLEGAL_REQUEST` before anything else is looked at
(30_encoding.md R102, R103, 45_display_ops.md R221): a reserved code, or a payload of another length than 0, `len`, 8 or
`8*len` bytes (log 18). That the port is a queue is log 3, that deciding is a step of its own log 1. -/
def Obligations.MalformedRequestRefused : Prop :=
  ∀ (s : State) (op : BitVec 4) (a b len : Byte) (payload : List Byte) (rest : List Request),
    s.busy = false → s.resetAsserted = false → s.port = ⟨requestWord op a b len, payload⟩ :: rest →
    (11 ≤ op.toNat ∨
      payload.length ≠
        (if op = 0x8 then len.toNat else if op = 0x9 then 8 else if op = 0xA then 8 * len.toNat else 0)) →
    step s = .next { s with port := rest, responses := s.responses ++ [.refused .illegalRequest] }

/-! ## The step -/

/-- An idle block with no reset asserted takes the oldest request off the port and runs the instruction it decodes to
(45_display_ops.md R221). That several requests wait in a queue, oldest first, is the model's choice (log 3), and that
deciding one is a step of its own is the model's reading (log 1). -/
def Obligations.StepRunsDecodedRequest : Prop :=
  ∀ (s : State) (q : Request) (rest : List Request) (i : Instr),
    s.busy = false → s.resetAsserted = false → s.port = q :: rest → decodeRequest q.word q.payload = .ok i →
    step s = exec i { s with port := rest }

/-- A busy block at a write (00_scope.md R8) runs the transaction byte it has on the transport (30_encoding.md R81). That
executing XACT is the sequencer's outstanding write is the model's reading (log 13). -/
def Obligations.StepRunsOutstandingTransaction : Prop :=
  ∀ (s : State) (op : Instr) (v : Byte) (todo : List Pending) (t : Nat) (i : Instr),
    s.cfg.wf = true → s.busy = true → s.resetAsserted = false → s.seq = some ⟨op, .write v :: todo, t⟩ →
    decode s.cfg (.xact (v ||| blv s.cfg s.bl)) = .ok i → step s = exec i s

/-- The instruction of a table word, placed by `withFetchWord`, is what the next step runs (log 15): a request or command
byte is taken off the port; a transaction byte is on the transport. -/
def Obligations.FetchWordRunsNext : Prop :=
  ∀ (s : State) (nbits w : Nat) (i : Instr), s.cfg = Config.default → decodeTableWord nbits w = some i →
    ((tableRow i).format ≠ .xact →
      step (s.withFetchWord nbits w) = exec i { s.withFetchWord nbits w with port := s.port }) ∧
    ((tableRow i).format = .xact → step (s.withFetchWord nbits w) = exec i (s.withFetchWord nbits w))

/-- A write answered `failure` (20_memory.md R50, 60_exceptions.md R261, R262, R264, R266): `F` ends the operation, nothing
more of it is done, the first fault since reset is recorded with the byte, `INIT` leaves `FAILED`, and the response is the
error. -/
def Obligations.FailedWriteAborts : Prop :=
  ∀ (s : State) (op : Instr) (v : Byte) (todo : List Pending) (t : Nat) (rest : List Input),
    s.busy = true → s.seq = some ⟨op, .write v :: todo, t⟩ → s.inputs = .answer .failure :: rest →
    (op ≠ .init →
      step s = .next { s with
        busy := false
        seq := none
        inputs := rest
        trace := s.trace ++ [.F (v ||| blv s.cfg s.bl)]
        fault := if s.fault = .none then .transport else s.fault
        faultByte := if s.fault = .none then v ||| blv s.cfg s.bl else s.faultByte
        responses := s.responses ++ [.error .transportError] }) ∧
    (op = .init →
      step s = .next { s with
        life := .failed
        busy := false
        seq := none
        inputs := rest
        trace := s.trace ++ [.F (v ||| blv s.cfg s.bl)]
        fault := if s.fault = .none then .init else s.fault
        faultByte := if s.fault = .none then v ||| blv s.cfg s.bl else s.faultByte
        responses := s.responses ++ [.error .initializationError] })

/-- A delay of `n` units ends no earlier than `n` units after it began (20_memory.md R63, 42_nibble_strobe.md R163,
70_reset_and_hazards.md R310), the last delay of an operation included, so that `DONE` waits for it (45_display_ops.md R226):
until then only the timer moves; then `D(n)` is done, and the position advances or, after the last event, the operation
ends. That `D(n)` enters the trace when the delay is over is log 9, what counts as its time log 5, and that the last event
and the response are one step log 10. -/
def Obligations.DelayHoldsItsTime : Prop :=
  ∀ (s : State) (op : Instr) (n m t : Nat) (todo : List Pending) (rest : List Input),
    s.busy = true → s.seq = some ⟨op, .delay n :: todo, t⟩ → s.inputs = .elapse m :: rest →
    (t + m < n → step s = .next { s with seq := some ⟨op, .delay n :: todo, t + m⟩, inputs := rest }) ∧
    (n ≤ t + m → todo ≠ [] →
      step s = .next { s with seq := some ⟨op, todo, 0⟩, inputs := rest, trace := s.trace ++ [.D n] }) ∧
    (n ≤ t + m → todo = [] →
      step s = .next { s with
        life := if op = .init then .ready else s.life
        busy := false
        seq := none
        inputs := rest
        trace := s.trace ++ [.D n]
        responses := s.responses ++ [.done] })

/-- A transport that never answers, a delay that never ends, a host that presents nothing (60_exceptions.md R274, R290, U4):
with no input the block stays as it is, for ever. That waiting is a step that changes nothing is the model's (log 2). -/
def Obligations.WaitsWithoutInput : Prop :=
  ∀ (s : State) (k : Nat), StateInv s → s.inputs = [] → s.busy = true ∨ s.port = [] → run k s = .next s

/-- Reset (10_state.md R35, 70_reset_and_hazards.md R300, R302): it pre-empts everything (60_exceptions.md R265), ends the
operation without a response or a write, and leaves the reset values; the configuration, the requests at the port and the
inputs to come stay (logs 6 and 8). The machine's reset state has these values in the default configuration. -/
def Obligations.ResetLeavesResetValues : Prop :=
  (∀ (s : State) (rest : List Input), s.inputs = .reset :: rest →
    step s = .next
      { life := .uninit, bl := s.cfg.blReset, fault := .none, faultByte := 0x00, busy := false, seq := none, trace := [],
        responses := [], port := s.port, inputs := rest, cfg := s.cfg }) ∧
  State.reset.status = (.uninit, true, .none, 0x00, false) ∧ State.reset.seq = none ∧ State.reset.trace = [] ∧
  State.reset.cfg = Config.default ∧ Config.default.wf = true

/-! ## Whole operations -/

/-- From any position of an operation, with every write answered `success` and every delay ended, however late, one step
per event ends it: the events are in the trace in order, the response is `DONE`, `INIT` leaves `READY`, and nothing else
changes (00_scope.md R8, 10_state.md R26, 20_memory.md R62, 45_display_ops.md R226). One step per event is log 1; the last
event and the response in one step is log 10. -/
def Obligations.OperationRunsToDone : Prop :=
  ∀ (s : State) (op : Instr) (todo : List Pending) (late : Nat → Nat) (k : Nat) (rest : List Input),
    todo ≠ [] → s.busy = true → s.seq = some ⟨op, todo, 0⟩ → s.inputs = serve late k todo ++ rest →
    run todo.length s =
      .next { s with
        life := if op = .init then .ready else s.life
        busy := false
        seq := none
        inputs := rest
        trace := s.trace ++ performed s.cfg s.bl todo
        responses := s.responses ++ [.done] }

/-- Precision of a fault (60_exceptions.md R267, 40_init_sequencer.md R123, 42_nibble_strobe.md R165): when the events
before a write succeed and it fails, the trace gains those events and the `F`, nothing after it, and the operation ends
with its error and the fault recorded if it is the first. One step per event is log 1. -/
def Obligations.OperationAbortsAtFailedWrite : Prop :=
  ∀ (s : State) (op : Instr) (before after : List Pending) (v : Byte) (late : Nat → Nat) (k : Nat) (rest : List Input),
    s.busy = true → s.seq = some ⟨op, before ++ .write v :: after, 0⟩ →
    s.inputs = serve late k before ++ .answer .failure :: rest →
    run (before.length + 1) s =
      .next { s with
        life := if op = .init then .failed else s.life
        busy := false
        seq := none
        inputs := rest
        trace := s.trace ++ performed s.cfg s.bl before ++ [.F (v ||| blv s.cfg s.bl)]
        fault := if s.fault = .none then (if op = .init then .init else .transport) else s.fault
        faultByte := if s.fault = .none then v ||| blv s.cfg s.bl else s.faultByte
        responses := s.responses ++ [.error (if op = .init then .initializationError else .transportError)] }

/-- Recovery (70_reset_and_hazards.md R302, R303, R314): from ANY state, reset, then an `INIT` request served without a
failure, gives `READY` with no fault, the backlight at `BL_RESET`, and the trace of one `INIT`. The first clause presents
`INIT` after reset, the second finds it at the port already; requests that wait before it are refused one by one, and those
behind it stay. That requests waiting at reset stay, and that the responses go, is the model's choice (log 8); the queue is
log 3, and the count of steps log 1. -/
def Obligations.ResetThenInitRecovers : Prop :=
  ∀ (s : State) (late : Nat → Nat) (before after : List Request) (q : Request) (rest : List Input),
    (∀ w ∈ before, decodeRequest w.word w.payload ≠ .ok .init) → decodeRequest q.word q.payload = .ok .init →
    (s.port = before → s.inputs = .reset :: .present q :: (serve late 0 (initEvents s.cfg) ++ rest) →
      ∃ reasons : List RefuseReason, reasons.length = before.length ∧
        run (3 + before.length + (initEvents s.cfg).length) s =
          .next { State.resetOf s.cfg with
            life := .ready
            trace := performed s.cfg s.cfg.blReset (initEvents s.cfg)
            responses := reasons.map .refused ++ [.done]
            inputs := rest }) ∧
    (s.port = before ++ q :: after → s.inputs = .reset :: (serve late 0 (initEvents s.cfg) ++ rest) →
      ∃ reasons : List RefuseReason, reasons.length = before.length ∧
        run (2 + before.length + (initEvents s.cfg).length) s =
          .next { State.resetOf s.cfg with
            life := .ready
            trace := performed s.cfg s.cfg.blReset (initEvents s.cfg)
            responses := reasons.map .refused ++ [.done]
            port := after
            inputs := rest })

/-! ## Invariants -/

/-- The state after reset meets both invariants in every well-formed configuration. -/
def Obligations.InvariantsAtReset : Prop :=
  ∀ c : Config, c.wf = true → StateInv (State.resetOf c) ∧ TraceInv (State.resetOf c)

/-- Every step keeps the invariant of the state (10_state.md R24, R26, 45_display_ops.md R220, R221, 60_exceptions.md R264,
R266). -/
def Obligations.StepKeepsInvariant : Prop :=
  ∀ s s' : State, StateInv s → step s = .next s' → StateInv s'

/-- From a state that meets the invariant a step always gives a next state: the block's faults and refusals are responses,
and the model's own stops do not happen (60_exceptions.md R269, R272; logs 13 and 17). -/
def Obligations.StepNeverStops : Prop :=
  ∀ s : State, StateInv s → ∃ s', step s = .next s'

/-- Every step keeps the invariant of the trace: over any fault-free trace EN alternates 1, 0 in pairs that differ in EN
alone (42_nibble_strobe.md R162), and RW is low in every write. -/
def Obligations.StepKeepsTraceInvariant : Prop :=
  ∀ s s' : State, StateInv s → TraceInv s → step s = .next s' → TraceInv s'

/-! ## Rules over all steps -/

/-- 42_nibble_strobe.md R161: a byte the block writes, answered `success` or `failure`, has the backlight bit set if and
only if `bl = 1` at the time of the write; `bl` does not change during an operation (log 24). -/
def Obligations.BacklightBitInEveryWrite : Prop :=
  ∀ s s' : State, StateInv s → step s = .next s' →
    (∀ x, s'.trace = s.trace ++ [.W x] ∨ s'.trace = s.trace ++ [.F x] →
      (x &&& s.cfg.blMask = s.cfg.blMask ↔ s.bl = true)) ∧
    (s.busy = true → s.resetAsserted = false → s'.bl = s.bl)

/-- 42_nibble_strobe.md R164: the read/write line stays low in every write of the block; `XACT` never sets it, nor does
`STROBE`, nor does any step. -/
def Obligations.ReadWriteLineStaysLow : Prop :=
  (∀ (c : Config) (nib : Nibble) (rs bl : Bool), c.wf = true →
    xactValue c nib rs &&& c.rwMask = 0 ∧
    ∀ x ∈ writesOf (performed c bl (strobe c (xactValue c nib rs))), x &&& c.rwMask = 0) ∧
  (∀ s s' : State, StateInv s → step s = .next s' →
    ∀ x, s'.trace = s.trace ++ [.W x] ∨ s'.trace = s.trace ++ [.F x] → x &&& s.cfg.rwMask = 0)

/-- One event at a time, in order, none dropped or changed (00_scope.md R8, 20_memory.md R62): without reset a step leaves
the trace and the responses or appends one element to each, and only a busy block appends an event. That a step is at most
one event is log 1. -/
def Obligations.OneEventPerStep : Prop :=
  ∀ s s' : State, step s = .next s' → s.resetAsserted = false →
    (s'.trace = s.trace ∨ (s.busy = true ∧ ∃ e, s'.trace = s.trace ++ [e])) ∧
    (s'.responses = s.responses ∨ ∃ r, s'.responses = s.responses ++ [r])

/-- Exactly one response for a request (45_display_ops.md R226), in a step without reset: an operation that is accepted or
goes on gives none; one that ends gives one; a request decided and not accepted, or ended at once, gives one. What is one step is logs 1, 10,
25 and 29. -/
def Obligations.OneResponsePerRequest : Prop :=
  ∀ s s' : State, StateInv s → step s = .next s' → s.resetAsserted = false →
    (s'.busy = true → s'.responses = s.responses) ∧
    (s.busy = true → s'.busy = false → ∃ r, s'.responses = s.responses ++ [r]) ∧
    (s.busy = false → s'.busy = false → s.port ≠ [] → ∃ r, s'.responses = s.responses ++ [r]) ∧
    (s.busy = false → s.port = [] → s'.responses = s.responses)

/-- The transition table of 45_display_ops.md R220: no other change of `life` exists; `INITIALIZING` goes to `READY` only as
the LAST delay of `INIT` completes, and to `FAILED` only as a write of `INIT` is answered `failure`. That the last delay and
the change are one step is log 10. -/
def Obligations.LifecycleTransitions : Prop :=
  ∀ s s' : State, StateInv s → step s = .next s' →
    (s.resetAsserted = true → s'.life = .uninit) ∧
    (s.resetAsserted = false →
      (s.life = .uninit → s'.life = .uninit ∨ (s'.life = .initializing ∧ s'.running = some .init)) ∧
      (s.life = .initializing →
        s'.life = .initializing ∨
          (s'.life = .ready ∧ ∃ n t, s.seq = some ⟨.init, [.delay n], t⟩ ∧ s'.trace = s.trace ++ [.D n]) ∨
          (s'.life = .failed ∧ ∃ v todo t, s.seq = some ⟨.init, .write v :: todo, t⟩ ∧
            s'.trace = s.trace ++ [.F (v ||| blv s.cfg s.bl)])) ∧
      (s.life = .ready → s'.life = .ready) ∧
      (s.life = .failed → s'.life = .failed))

/-- After an `InitializationError` the block refuses everything until reset (60_exceptions.md R269, R270): no event, no
change of a state field, and any response is a refusal. -/
def Obligations.FailedBlockRefusesUntilReset : Prop :=
  ∀ s s' : State, StateInv s → s.life = .failed → s.resetAsserted = false → step s = .next s' →
    s'.status = s.status ∧ s'.seq = none ∧ s'.trace = s.trace ∧
    (s'.responses = s.responses ∨ ∃ r, s'.responses = s.responses ++ [.refused r])

/-- The first fault sticks until reset (10_state.md R23, 60_exceptions.md R264), and a step that records one gives the
response `ERROR` of its kind. -/
def Obligations.FirstFaultSticks : Prop :=
  ∀ s s' : State, step s = .next s' → s.resetAsserted = false →
    (s.fault ≠ .none → s'.fault = s.fault ∧ s'.faultByte = s.faultByte) ∧
    (s.fault = .none → s'.fault ≠ .none →
      ∃ k : ErrorKind, s'.responses = s.responses ++ [.error k] ∧ s'.fault = k.faultCode)

/-- `bl` is written only by reset and by `BACKLIGHT` (10_state.md R22), and no step changes the configuration (log 6). -/
def Obligations.BacklightAndConfigurationWriters : Prop :=
  ∀ s s' : State, step s = .next s' →
    s'.cfg = s.cfg ∧
    (s'.bl ≠ s.bl → s.resetAsserted = false →
      s.busy = false ∧ s.life = .ready ∧
        ∃ q rest on, s.port = q :: rest ∧ decodeRequest q.word q.payload = .ok (.backlight on) ∧ s'.bl = on)

/-- The sequencer position (10_state.md R26): 0 at acceptance, one more for each event done, the same while an event is
outstanding, and always an index into the operation's events. That acceptance is a step of its own is log 1. -/
def Obligations.SequencerPosition : Prop :=
  ∀ s s' : State, StateInv s → step s = .next s' → s.resetAsserted = false →
    (s.busy = true → s'.busy = true →
      ∃ n, s.seqPc = some n ∧
        ((s'.trace = s.trace ∧ s'.seqPc = some n) ∨ (∃ e, s'.trace = s.trace ++ [e] ∧ s'.seqPc = some (n + 1)))) ∧
    (s.busy = false → s'.busy = true → s'.seqPc = some 0) ∧
    (∀ n q, s'.seqPc = some n → s'.seq = some q → n < (eventsOf s'.cfg q.op).length)

/-- What a busy block does is decided by the request captured at acceptance (20_memory.md R67): the requests at the port
have no part in it. Two runs that differ only there go on differing only there. That the port is a queue is log 3. -/
def Obligations.PortDoesNotReachOperation : Prop :=
  ∀ (s s' : State) (other : List Request), s.busy = true → step s = .next s' →
    ∃ waiting, s'.port = s.port ++ waiting ∧
      step { s with port := other } = .next { s' with port := other ++ waiting }

/-! ## Frames -/

/-- Frame of every instruction but XACT (10_state.md R20, R22, R23, R25; 45_display_ops.md R221): when `exec` gives a next
state, nothing was written to the transport and nothing but these changed: `bl` by an accepted `BACKLIGHT`; `fault` and
`fault_byte` by a strict `LDGLYPH` as the first fault; `life` by an accepted `INIT`; `busy` and `seq`, which are left as they
were or set to an operation in progress at the start of its own events: the instruction itself for format REQ, `WRCMD` of
the byte the instruction encodes to for formats CMD and CMD_FIXED (logs 11 and 12); and at most one response. That the
configuration is a field no step changes is log 6, that requests wait in a port log 3. -/
def Obligations.RequestFrame : Prop :=
  ∀ (i : Instr) (s t : State), (tableRow i).format ≠ .xact → exec i s = .next t →
    t.trace = s.trace ∧ t.port = s.port ∧ t.inputs = s.inputs ∧ t.cfg = s.cfg ∧
    (t.bl = s.bl ∨ ∃ on, i = .backlight on ∧ t.bl = on ∧ s.Ready) ∧
    ((t.fault = s.fault ∧ t.faultByte = s.faultByte) ∨
      ∃ slot g, i = .ldglyph slot g ∧ s.Ready ∧ s.cfg.strictSlot = true ∧ 7 < slot.toNat ∧ s.fault = .none ∧
        t.fault = .invalidSlot ∧ t.faultByte = slot) ∧
    (t.life = s.life ∨ (i = .init ∧ s.life = .uninit ∧ t.life = .initializing)) ∧
    ((t.responses = s.responses ∧
        ((t.busy = s.busy ∧ t.seq = s.seq) ∨
          (t.busy = true ∧ ∃ op, t.seq = some ⟨op, eventsOf s.cfg op, 0⟩ ∧
            ((tableRow i).format = .req ∧ op = i ∨
              ∃ b, op = .wrcmd b ∧ (encode s.cfg i = .cmd b ∨ encode s.cfg i = .cmdFixed b))))) ∨
      (∃ r, t.responses = s.responses ++ [r]) ∧ t.busy = false ∧ (t.seq = s.seq ∨ t.seq = none))

/-- Frame of XACT (20_memory.md R50, R56; 60_exceptions.md R266), with no reset asserted: the configuration, `bl` and the
requests at the port are as before (a request presented by the next input joins them); `life` changes only for `INIT`;
`fault` and `fault_byte` only as the first fault, with the byte written; the trace gains at most a `W` or `F` of that byte.
The model's own part, which no rule states: that `exec` of XACT is the outstanding write is log 13, that a presented request
joins the end of a port is log 3, and that the configuration is a field no step changes is log 6. -/
def Obligations.TransactionFrame : Prop :=
  ∀ (data : Nibble) (bl en rs : Bool) (s t : State), s.resetAsserted = false → exec (.xact data bl en rs) s = .next t →
    t.cfg = s.cfg ∧ t.bl = s.bl ∧
    (t.port = s.port ∨ ∃ q rest, s.inputs = .present q :: rest ∧ t.port = s.port ++ [q]) ∧
    (t.life = s.life ∨ s.running = some .init) ∧
    ((t.fault = s.fault ∧ t.faultByte = s.faultByte) ∨
      (s.fault = .none ∧ t.fault ≠ .none ∧ t.faultByte = transactionByte s.cfg data bl en rs)) ∧
    (t.trace = s.trace ∨ t.trace = s.trace ++ [.W (transactionByte s.cfg data bl en rs)] ∨
      t.trace = s.trace ++ [.F (transactionByte s.cfg data bl en rs)])

/-! ## What the reference observer sees

The observer of 95_test_vectors.md section 1 is the spec's test double, non-normative and from general knowledge (log 20). -/

/-- S1: a controller in 4-bit mode with no half byte, its lines as they may be, executes exactly the byte that was sent,
with the register-select line it was sent with. -/
def Obligations.ObserverExecutesSentByte : Prop :=
  ∀ (c : Config) (o : Observer) (b : Byte) (rs bl : Bool), c.wf = true → o.mode8 = false → o.half = none →
    ∃ x, observeAll c o (performed c bl (sendByte c b rs)) = { o.execute b rs with lines := x, half := none } ∧
      (observeAll c o (performed c bl (sendByte c b rs))).bytes = o.bytes ++ [(rs, b)]

/-- S6 (40_init_sequencer.md R121, R125): from either interface width, any nibble phase and any lines, the four raw nibbles
of `INIT` leave the controller in 4-bit mode with its phase at a high half. -/
def Obligations.PreambleSynchronisesObserver : Prop :=
  ∀ (c : Config) (o : Observer) (bl : Bool), c.wf = true →
    let o' := observeAll c o (performed c bl (nib c 0x3 ++ nib c 0x3 ++ nib c 0x3 ++ nib c 0x2))
    o'.mode8 = false ∧ o'.half = none

/-- S5 (45_display_ops.md R224, R225): with the default command bytes one scroll left and one right leave the address, both
memories and the shift of a synchronised controller as they were. -/
def Obligations.ScrollsCancel : Prop :=
  ∀ (o : Observer) (bl : Bool), o.mode8 = false → o.half = none →
    let o' := observeAll Config.default o
      (performed Config.default bl (eventsOf Config.default .scrolll ++ eventsOf Config.default .scrollr))
    o'.ac = o.ac ∧ o'.inCg = o.inCg ∧ o'.dd = o.dd ∧ o'.cg = o.cg ∧ o'.shift = o.shift ∧ o'.mode8 = false ∧
      o'.half = none

/-- S7 and S3 (45_display_ops.md R227, 44_cgram_loader.md R201, R202; 20_memory.md R57, R58): at a synchronised controller
the characters of `WRSTR` stand in DDRAM from the resolved address on, the rows of `LDGLYPH` in the eight CGRAM addresses of
the masked slot, and the rows of `LDGLYPHS` in CGRAM from address 0 on, in the default configuration. Where a string is
longer than DDRAM, or bitmaps more than CGRAM holds, the last byte sent to an address stands there. -/
def Obligations.StringsAndGlyphsReachController : Prop :=
  ∀ (o : Observer) (bl : Bool), o.mode8 = false → o.half = none →
    Memory.wf ddDefault o.dd = true → Memory.wf cgDefault o.cg = true →
    (∀ (line col : Byte) (text : List Byte) (k : Nat) (h : k < text.length), text.length ≤ k + 128 →
      Memory.read ddDefault
          (observeAll Config.default o
            (performed Config.default bl (eventsOf Config.default (.wrstr line col text)))).dd
          (((resolve line col).toNat + k) % 128) = some text[k]) ∧
    (∀ (slot : Byte) (g : Glyph) (k : Nat) (h : k < g.rows.length),
      Memory.read cgDefault
          (observeAll Config.default o (performed Config.default bl (eventsOf Config.default (.ldglyph slot g)))).cg
          (8 * (slot.toNat % 8) + k) = some g.rows[k]) ∧
    (∀ (gs : List Glyph) (k : Nat) (h : k < (gs.flatMap Glyph.rows).length),
      (gs.flatMap Glyph.rows).length ≤ k + 64 →
      Memory.read cgDefault
          (observeAll Config.default o (performed Config.default bl (eventsOf Config.default (.ldglyphs gs)))).cg
          (k % 64) = some (gs.flatMap Glyph.rows)[k])
end

