-- ==== Sys2Proof/Laws/Decode.lean ====
section
/-! SUPPORT. The fields of a request word, payloads cut into bitmaps, and what the decoder answers. -/

namespace Sys2Proof

@[simp] theorem opField_requestWord (op : BitVec 4) (a b len : Byte) : opField (requestWord op a b len) = op := by
  apply BitVec.eq_of_toNat_eq
  simp only [opField, requestWord, BitVec.extractLsb'_toNat, BitVec.toNat_append, ← Nat.shiftLeft_add_eq_or_of_lt,
    BitVec.isLt]
  simp only [Nat.shiftLeft_eq, Nat.shiftRight_eq_div_pow]
  omega

@[simp] theorem aField_requestWord (op : BitVec 4) (a b len : Byte) : aField (requestWord op a b len) = a := by
  apply BitVec.eq_of_toNat_eq
  simp only [aField, requestWord, BitVec.extractLsb'_toNat, BitVec.toNat_append, ← Nat.shiftLeft_add_eq_or_of_lt,
    BitVec.isLt]
  simp only [Nat.shiftLeft_eq, Nat.shiftRight_eq_div_pow]
  omega

@[simp] theorem bField_requestWord (op : BitVec 4) (a b len : Byte) : bField (requestWord op a b len) = b := by
  apply BitVec.eq_of_toNat_eq
  simp only [bField, requestWord, BitVec.extractLsb'_toNat, BitVec.toNat_append, ← Nat.shiftLeft_add_eq_or_of_lt,
    BitVec.isLt]
  simp only [Nat.shiftLeft_eq, Nat.shiftRight_eq_div_pow]
  omega

@[simp] theorem lenField_requestWord (op : BitVec 4) (a b len : Byte) : lenField (requestWord op a b len) = len := by
  apply BitVec.eq_of_toNat_eq
  simp only [lenField, requestWord, BitVec.extractLsb'_toNat, BitVec.toNat_append, ← Nat.shiftLeft_add_eq_or_of_lt,
    BitVec.isLt]
  simp only [Nat.shiftLeft_eq, Nat.shiftRight_eq_div_pow]
  omega

@[simp] theorem glyph_rows_length (g : Glyph) : g.rows.length = 8 := rfl

/-- The rows of bitmaps, cut again, give the bitmaps. -/
@[simp] theorem glyphsOf_rows (gs : List Glyph) : glyphsOf (gs.flatMap Glyph.rows) = some gs := by
  induction gs with
  | nil => rfl
  | cons g rest ih => simp [Glyph.rows, glyphsOf] at ih ⊢; exact ih

/-- Bitmaps cut from a payload have its rows, in order. -/
theorem rows_glyphsOf {payload : List Byte} {gs : List Glyph} (h : glyphsOf payload = some gs) :
    gs.flatMap Glyph.rows = payload := by
  induction payload using glyphsOf.induct generalizing gs with
  | case1 => simp [glyphsOf] at h; subst h; rfl
  | case2 a b c d e f g h' rest ih =>
    simp only [glyphsOf, Option.map_eq_some_iff] at h
    obtain ⟨gs', hgs, rfl⟩ := h
    simp [Glyph.rows, ih hgs]
  | case3 l h1 h2 =>
    unfold glyphsOf at h
    split at h
    · exact absurd rfl h1
    · exact absurd rfl (h2 _ _ _ _ _ _ _ _ _)
    · cases h

theorem rows_length (gs : List Glyph) : (gs.flatMap Glyph.rows).length = 8 * gs.length := by
  induction gs with
  | nil => rfl
  | cons g rest ih => simp only [List.flatMap_cons, List.length_append, glyph_rows_length, List.length_cons, ih]; omega

theorem payloadLength_requestWord (op : BitVec 4) (a b len : Byte) :
    payloadLength (requestWord op a b len) =
      if op = 0x8 then len.toNat else if op = 0x9 then 8 else if op = 0xA then 8 * len.toNat else 0 := by
  unfold payloadLength
  simp only [opField_requestWord, lenField_requestWord]
  split <;> simp_all

/-- A request decodes to a well-formed instruction of format REQ. -/
theorem decodeRequest_spec {w : RequestWord} {payload : List Byte} {i : Instr} (h : decodeRequest w payload = .ok i) :
    i.wf = true ∧ (tableRow i).format = .req := by
  unfold decodeRequest at h
  split at h
  · next j hj =>
    cases h
    unfold decodeReserved at hj
    split at hj <;> simp at hj <;> subst hj <;> exact ⟨rfl, rfl⟩
  · split at h
    · next hl =>
      split at h
      · next j hj =>
        cases h
        unfold decodeOperation at hj
        unfold payloadLength at hl
        split at hj <;> (try (simp at hj; subst hj; exact ⟨rfl, rfl⟩))
        · next h8 =>
          simp only [Option.some.injEq] at hj
          subst hj
          simp only [h8] at hl
          exact ⟨by simp [Instr.wf, hl]; omega, rfl⟩
        · split at hj <;> simp at hj
          subst hj
          exact ⟨rfl, rfl⟩
        · next hA =>
          simp only [hA] at hl
          obtain ⟨gs, hgs, rfl⟩ := Option.map_eq_some_iff.1 hj
          have h8 := rows_length gs
          rw [rows_glyphsOf hgs] at h8
          exact ⟨by simp [Instr.wf]; omega, rfl⟩
        · simp at hj
      · cases h
    · cases h

end Sys2Proof
end

