-- ==== Sys2Proof/Laws/Layout.lean ====
section
/-! SUPPORT. What a well-formed configuration says of transaction bytes (00_scope.md R12): one elimination lemma over the
possible layouts, and the field lemmas the provers cite instead of unfolding a layout. -/

namespace Sys2Proof

/-- A check over every placement of the data field and of four distinct single-bit masks outside it. -/
def everyLayout (p : Nat → Byte → Byte → Byte → Byte → Bool) : Bool :=
  [0, 1, 2, 3, 4].all fun l =>
    let free := singleBitMasks.filter (fun m => m &&& 0x0F#8 <<< l == 0)
    free.all fun en =>
      (free.filter (fun m => en != m)).all fun rw =>
        ((free.filter (fun m => en != m)).filter (fun m => rw != m)).all fun rs =>
          (((free.filter (fun m => en != m)).filter (fun m => rw != m)).filter (fun m => rs != m)).all fun bl =>
            p l en rw rs bl

/-- A property of a well-formed layout holds when it holds of every placement. -/
theorem Config.wf_elim {p : Nat → Byte → Byte → Byte → Byte → Bool} {c : Config} (h : c.wf = true)
    (hp : everyLayout p = true) : p c.dataLsb c.enMask c.rwMask c.rsMask c.blMask = true := by
  obtain ⟨en, rw', rs, bl, l⟩ := c
  simp only [Config.wf, Config.controlMasks, Config.dataMask, List.all_cons, List.all_nil, Bool.and_true,
    Bool.and_eq_true, List.contains_iff_mem, decide_eq_true_eq, List.nodup_cons, List.mem_cons,
    List.not_mem_nil, or_false, not_or, not_false_eq_true, List.nodup_nil, and_true] at h
  obtain ⟨⟨⟨⟨men, mrw, mrs, mbl⟩, ⟨n1, n2, n3⟩, ⟨n4, n5⟩, n6⟩, hl⟩, d1, d2, d3, d4⟩ := h
  have hl' : l ∈ [0, 1, 2, 3, 4] := by
    simp only [List.mem_cons, List.not_mem_nil, or_false]; omega
  have f : ∀ {m : Byte}, m ∈ singleBitMasks → (m &&& 0x0F#8 <<< l == 0) = true →
      m ∈ singleBitMasks.filter (fun m => m &&& 0x0F#8 <<< l == 0) := fun h1 h2 => List.mem_filter.mpr ⟨h1, h2⟩
  have g : ∀ {x m : Byte} {ms : List Byte}, m ∈ ms → x ≠ m → m ∈ ms.filter (fun m => x != m) :=
    fun h1 h2 => List.mem_filter.mpr ⟨h1, bne_iff_ne.mpr h2⟩
  have h0 := List.all_eq_true.mp hp l hl'
  have h1 := List.all_eq_true.mp h0 en (f men d1)
  have h2 := List.all_eq_true.mp h1 rw' (g (f mrw d2) n1)
  have h3 := List.all_eq_true.mp h2 rs (g (g (f mrs d3) n2) n4)
  exact List.all_eq_true.mp h3 bl (g (g (g (f mbl d4) n3) n5) n6)

namespace Machine

/-- The control masks overlap nowhere and none is empty. -/
theorem layout_disjoint {c : Config} (h : c.wf = true) :
    c.enMask &&& c.rwMask = 0 ∧ c.enMask &&& c.rsMask = 0 ∧ c.enMask &&& c.blMask = 0 ∧
    c.rwMask &&& c.rsMask = 0 ∧ c.rwMask &&& c.blMask = 0 ∧ c.rsMask &&& c.blMask = 0 ∧
    c.enMask ≠ 0 ∧ c.rwMask ≠ 0 ∧ c.rsMask ≠ 0 ∧ c.blMask ≠ 0 := by
  have := Config.wf_elim (p := fun _ en rw rs bl => decide (en &&& rw = 0 ∧ en &&& rs = 0 ∧ en &&& bl = 0 ∧
    rw &&& rs = 0 ∧ rw &&& bl = 0 ∧ rs &&& bl = 0 ∧ en ≠ 0 ∧ rw ≠ 0 ∧ rs ≠ 0 ∧ bl ≠ 0)) h (by decide +kernel)
  simpa only [decide_eq_true_eq] using this

/-- The data field and the control masks cover the byte. -/
theorem layout_cover {c : Config} (h : c.wf = true) :
    c.dataMask ||| c.blMask ||| c.enMask ||| c.rsMask ||| c.rwMask = 0xFF := by
  have := Config.wf_elim (p := fun l en rw rs bl => 0x0F#8 <<< l ||| bl ||| en ||| rs ||| rw == 0xFF) h
    (by decide +kernel)
  simpa only [beq_iff_eq, Config.dataMask] using this

theorem wf_masks {c : Config} (h : c.wf = true) :
    c.enMask ∈ singleBitMasks ∧ c.rwMask ∈ singleBitMasks ∧ c.rsMask ∈ singleBitMasks ∧ c.blMask ∈ singleBitMasks ∧
    c.dataLsb ∈ [0, 1, 2, 3, 4] := by
  have := Config.wf_elim (p := fun l en rw rs bl => decide (en ∈ singleBitMasks ∧ rw ∈ singleBitMasks ∧
    rs ∈ singleBitMasks ∧ bl ∈ singleBitMasks ∧ l ∈ [0, 1, 2, 3, 4])) h (by decide +kernel)
  simpa only [decide_eq_true_eq] using this

/-- A line is high in a byte exactly when the byte has the mask of the line. -/
theorem lineBits_lineHigh {m : Byte} (hm : m ∈ singleBitMasks) : ∀ b : Byte, lineBits m (lineHigh m b) = b &&& m := by
  revert m; decide +kernel

/-- The data field of a byte, put back in place, is the byte under the data mask. -/
theorem dataField_shift {l : Nat} (hl : l ∈ [0, 1, 2, 3, 4]) :
    ∀ b : Byte, (b.extractLsb' l 4).setWidth 8 <<< l = b &&& 0x0F#8 <<< l := by
  revert l; decide +kernel

/-- Every transaction byte with the read/write line low is the byte of its fields (30_encoding.md R81). -/
theorem transactionByte_fields {c : Config} (h : c.wf = true) {b : Byte} (hb : lineHigh c.rwMask b = false) :
    transactionByte c (dataField c b) (lineHigh c.blMask b) (lineHigh c.enMask b) (lineHigh c.rsMask b) = b := by
  obtain ⟨hen, hrw, hrs, hbl, hl⟩ := wf_masks h
  have hlow : b &&& c.rwMask = 0#8 := by rw [← lineBits_lineHigh hrw, hb]; rfl
  unfold transactionByte dataField
  rw [dataField_shift hl, lineBits_lineHigh hbl, lineBits_lineHigh hen, lineBits_lineHigh hrs]
  calc b &&& 0x0F#8 <<< c.dataLsb ||| b &&& c.blMask ||| b &&& c.enMask ||| b &&& c.rsMask
      = b &&& 0x0F#8 <<< c.dataLsb ||| b &&& c.blMask ||| b &&& c.enMask ||| b &&& c.rsMask ||| b &&& c.rwMask := by
        rw [hlow, BitVec.or_zero]
    _ = b &&& (c.dataMask ||| c.blMask ||| c.enMask ||| c.rsMask ||| c.rwMask) := by
        simp only [Config.dataMask, BitVec.and_or_distrib_left]
    _ = b := by rw [layout_cover h]; exact BitVec.and_allOnes

/-- No control mask reaches into the data field, whatever stands there. -/
theorem layout_outside {c : Config} (h : c.wf = true) {m : Byte} (hm : m ∈ c.controlMasks) :
    (∀ data : Nibble, (data.setWidth 8 <<< c.dataLsb) &&& m = 0) ∧ m.extractLsb' c.dataLsb 4 = 0 := by
  have key : ∀ l ∈ [0, 1, 2, 3, 4], ∀ m ∈ singleBitMasks, m &&& 0x0F#8 <<< l = 0 →
      (∀ data : Nibble, (data.setWidth 8 <<< l) &&& m = 0) ∧ m.extractLsb' l 4 = 0 := by decide +kernel
  have hall : ∀ m ∈ c.controlMasks, m ∈ singleBitMasks ∧ m &&& c.dataMask = 0 := by
    simp only [Config.wf, Bool.and_eq_true, List.all_eq_true, List.contains_iff_mem, beq_iff_eq] at h
    exact fun m hm => ⟨h.1.1.1 m hm, h.2 m hm⟩
  exact key _ (wf_masks h).2.2.2.2 m (hall m hm).1 (hall m hm).2

/-- A line is high in a union exactly when it is high in a part. -/
theorem lineHigh_or (m a b : Byte) : lineHigh m (a ||| b) = (lineHigh m a || lineHigh m b) := by
  have hd : (a ||| b) &&& m = (a &&& m) ||| (b &&& m) := by
    rw [BitVec.and_comm, BitVec.and_or_distrib_left, BitVec.and_comm m a, BitVec.and_comm m b]
  have hz : ∀ x y : Byte, (x ||| y == 0#8) = (x == 0#8 && y == 0#8) := by
    intro x y
    rw [Bool.eq_iff_iff]; simp [BitVec.or_eq_zero_iff]
  simp only [lineHigh, hd, bne]
  exact (congrArg _ (hz _ _)).trans (Bool.not_and _ _)

/-- The line of a mask is as high as it was put. -/
theorem lineHigh_lineBits_self {m : Byte} (hm : m ≠ 0#8) (x : Bool) : lineHigh m (lineBits m x) = x := by
  cases x <;> simp [lineHigh, lineBits, hm]

/-- The line of another mask is low. -/
theorem lineHigh_lineBits_other {m m' : Byte} (h : m' &&& m = 0) (x : Bool) : lineHigh m (lineBits m' x) = false := by
  cases x
  · simp [lineHigh, lineBits]
  · show (m' &&& m != 0) = false
    rw [h]; rfl

/-- The fields of a transaction byte are the ones it was built from. -/
theorem fields_transactionByte {c : Config} (h : c.wf = true) (data : Nibble) (bl en rs : Bool) :
    dataField c (transactionByte c data bl en rs) = data ∧
    lineHigh c.blMask (transactionByte c data bl en rs) = bl ∧
    lineHigh c.enMask (transactionByte c data bl en rs) = en ∧
    lineHigh c.rsMask (transactionByte c data bl en rs) = rs ∧
    lineHigh c.rwMask (transactionByte c data bl en rs) = false := by
  obtain ⟨d1, d2, d3, d4, d5, d6, nen, -, nrs, nbl⟩ := layout_disjoint h
  have comm : ∀ {x y : Byte}, x &&& y = 0 → y &&& x = 0 := fun h => (BitVec.and_comm _ _).trans h
  have oen := layout_outside h (m := c.enMask) (by simp [Config.controlMasks])
  have orw := layout_outside h (m := c.rwMask) (by simp [Config.controlMasks])
  have ors := layout_outside h (m := c.rsMask) (by simp [Config.controlMasks])
  have obl := layout_outside h (m := c.blMask) (by simp [Config.controlMasks])
  have low : ∀ {m : Byte}, (∀ data : Nibble, (data.setWidth 8 <<< c.dataLsb) &&& m = 0) →
      lineHigh m (data.setWidth 8 <<< c.dataLsb) = false := by
    intro m hm
    show ((data.setWidth 8 <<< c.dataLsb) &&& m != 0) = false
    rw [hm data]; rfl
  have ext : ∀ {m : Byte} (x : Bool), m.extractLsb' c.dataLsb 4 = 0 → (lineBits m x).extractLsb' c.dataLsb 4 = 0 := by
    intro m x hm
    cases x
    · show (0#8).extractLsb' c.dataLsb 4 = 0#4
      simp
    · exact hm
  have hd : ∀ l ∈ [0, 1, 2, 3, 4], ∀ data : Nibble, (data.setWidth 8 <<< l).extractLsb' l 4 = data := by
    decide +kernel
  unfold transactionByte
  refine ⟨?_, ?_, ?_, ?_, ?_⟩
  · unfold dataField
    rw [BitVec.extractLsb'_or, BitVec.extractLsb'_or, BitVec.extractLsb'_or, ext bl obl.2, ext en oen.2, ext rs ors.2,
      hd _ (wf_masks h).2.2.2.2 data]
    show data ||| 0#4 ||| 0#4 ||| 0#4 = data
    simp
  · simp [lineHigh_or, low obl.1, lineHigh_lineBits_self nbl, lineHigh_lineBits_other d3, lineHigh_lineBits_other d6]
  · simp [lineHigh_or, low oen.1, lineHigh_lineBits_self nen, lineHigh_lineBits_other (comm d3),
      lineHigh_lineBits_other (comm d2)]
  · simp [lineHigh_or, low ors.1, lineHigh_lineBits_self nrs, lineHigh_lineBits_other (comm d6),
      lineHigh_lineBits_other d2]
  · simp [lineHigh_or, low orw.1, lineHigh_lineBits_other (comm d5), lineHigh_lineBits_other d1,
      lineHigh_lineBits_other (comm d4)]

/-- The transaction value is the transaction byte with EN and BL low. -/
theorem xactValue_eq (c : Config) (nib : Nibble) (rs : Bool) : xactValue c nib rs = transactionByte c nib false false rs := by
  simp [xactValue, transactionByte, lineBits]

theorem xactValue_fields {c : Config} (h : c.wf = true) (nib : Nibble) (rs : Bool) :
    dataField c (xactValue c nib rs) = nib ∧ lineHigh c.rsMask (xactValue c nib rs) = rs ∧
    lineHigh c.rwMask (xactValue c nib rs) = false ∧ lineHigh c.enMask (xactValue c nib rs) = false ∧
    lineHigh c.blMask (xactValue c nib rs) = false := by
  rw [xactValue_eq]
  obtain ⟨h1, h2, h3, h4, h5⟩ := fields_transactionByte h nib false false rs
  exact ⟨h1, h4, h5, h3, h2⟩

/-- The byte with the enable line raised and the backlight merged (30_encoding.md R83). -/
theorem xactValue_enableHigh (c : Config) (nib : Nibble) (rs bl : Bool) :
    xactValue c nib rs ||| c.enMask ||| blv c bl = transactionByte c nib bl true rs := by
  cases bl <;> cases rs <;> simp [xactValue, transactionByte, lineBits, blv] <;> ac_rfl

/-- The byte with the enable line low and the backlight merged. -/
theorem xactValue_enableLow (c : Config) (nib : Nibble) (rs bl : Bool) :
    xactValue c nib rs ||| blv c bl = transactionByte c nib bl false rs := by
  cases bl <;> cases rs <;> simp [xactValue, transactionByte, lineBits, blv]; ac_rfl

/-- Lowering the enable line of a transaction value changes nothing. -/
theorem xactValue_and_not_enable {c : Config} (h : c.wf = true) (nib : Nibble) (rs : Bool) :
    xactValue c nib rs &&& ~~~c.enMask = xactValue c nib rs := by
  have hlow : xactValue c nib rs &&& c.enMask = 0#8 := by
    rw [← lineBits_lineHigh (wf_masks h).1, (xactValue_fields h nib rs).2.2.2.1]; rfl
  calc xactValue c nib rs &&& ~~~c.enMask
      = (xactValue c nib rs &&& ~~~c.enMask) ||| (xactValue c nib rs &&& c.enMask) := by rw [hlow, BitVec.or_zero]
    _ = xactValue c nib rs := by rw [← BitVec.and_or_distrib_left, BitVec.or_comm, BitVec.or_not_self, BitVec.and_allOnes]

end Machine
end Sys2Proof
end

