-- ==== Sys2Proof/Laws/Memory.lean ====
section
/-! SUPPORT. Byte memories: a write keeps the canonical form, the byte written is read, every other byte stays. -/

namespace Sys2Proof.Machine

theorem Memory.wf_iff {dflt : Option Byte} {m : Memory} :
    Memory.wf dflt m = true ↔ m.Pairwise (fun x y => x.1 < y.1) ∧ ∀ cell ∈ m, some cell.2 ≠ dflt := by
  simp [Memory.wf]

theorem Memory.wf_nil (dflt : Option Byte) : Memory.wf dflt [] = true := rfl

theorem Memory.wf_cons {dflt : Option Byte} {k : Nat} {v : Byte} {m : Memory} :
    Memory.wf dflt ((k, v) :: m) = true ↔
      (∀ cell ∈ m, k < cell.1) ∧ some v ≠ dflt ∧ Memory.wf dflt m = true := by
  simp only [Memory.wf_iff, List.pairwise_cons, List.forall_mem_cons]
  tauto

/-- An address below every listed one is unlisted. -/
theorem Memory.read_below {dflt : Option Byte} {a : Nat} {m : Memory} (h : ∀ cell ∈ m, a < cell.1) :
    Memory.read dflt m a = dflt := by
  induction m with
  | nil => rfl
  | cons cell rest ih =>
    obtain ⟨k, v⟩ := cell
    simp only [List.forall_mem_cons] at h
    simp [Memory.read, Nat.ne_of_lt h.1, ih h.2]

theorem Memory.wf_put {dflt : Option Byte} {a : Nat} {b : Byte} {m : Memory} (hm : Memory.wf dflt m = true)
    (ha : ∀ cell ∈ m, a < cell.1) : Memory.wf dflt (Memory.put dflt a b m) = true := by
  unfold Memory.put
  split
  · exact hm
  · exact Memory.wf_cons.2 ⟨ha, ‹_›, hm⟩

/-- A write lists no address but its own and those listed before. -/
theorem Memory.mem_write {dflt : Option Byte} {a : Nat} {b : Byte} {m : Memory} {cell : Host.Cell}
    (h : cell ∈ Memory.write dflt m a b) : cell.1 = a ∨ cell ∈ m := by
  induction m with
  | nil => simp only [Memory.write, Memory.put] at h; split at h <;> simp_all
  | cons head rest ih =>
    obtain ⟨k, v⟩ := head
    simp only [Memory.write, Memory.put] at h
    split at h
    · split at h
      · exact .inr h
      · rcases List.mem_cons.1 h with rfl | h
        · exact .inl rfl
        · exact .inr h
    · split at h
      · split at h
        · exact .inr (List.mem_cons_of_mem _ h)
        · rcases List.mem_cons.1 h with rfl | h
          · exact .inl rfl
          · exact .inr (List.mem_cons_of_mem _ h)
      · rcases List.mem_cons.1 h with rfl | h
        · exact .inr List.mem_cons_self
        · exact (ih h).imp id (List.mem_cons_of_mem _)

/-- A write keeps the canonical form. -/
theorem Memory.wf_write {dflt : Option Byte} {m : Memory} (a : Nat) (b : Byte) (hm : Memory.wf dflt m = true) :
    Memory.wf dflt (Memory.write dflt m a b) = true := by
  induction m with
  | nil => exact Memory.wf_put rfl (by simp)
  | cons head rest ih =>
    obtain ⟨k, v⟩ := head
    obtain ⟨hk, hv, hr⟩ := Memory.wf_cons.1 hm
    simp only [Memory.write]
    split
    · next h =>
      refine Memory.wf_put hm ?_
      simp only [List.forall_mem_cons]
      exact ⟨h, fun cell hc => Nat.lt_trans h (hk cell hc)⟩
    · split
      · next h => exact Memory.wf_put hr (h ▸ hk)
      · refine Memory.wf_cons.2 ⟨?_, hv, ih hr⟩
        intro cell hc
        rcases Memory.mem_write hc with h | h
        · omega
        · exact hk cell h

/-- The byte written is read. -/
theorem Memory.read_write_same {dflt : Option Byte} {m : Memory} (a : Nat) (b : Byte) (hm : Memory.wf dflt m = true) :
    Memory.read dflt (Memory.write dflt m a b) a = some b := by
  induction m with
  | nil => simp only [Memory.write, Memory.put]; split <;> simp_all [Memory.read]
  | cons head rest ih =>
    obtain ⟨k, v⟩ := head
    obtain ⟨hk, hv, hr⟩ := Memory.wf_cons.1 hm
    simp only [Memory.write, Memory.put]
    split
    · next h =>
      split
      · next hb =>
        rw [Memory.read_below, hb]
        simp only [List.forall_mem_cons]
        exact ⟨h, fun cell hc => Nat.lt_trans h (hk cell hc)⟩
      · simp [Memory.read]
    · split
      · next h =>
        split
        · next hb => rw [Memory.read_below (h ▸ hk), hb]
        · simp [Memory.read]
      · next h => simp [Memory.read, h, ih hr]

/-- A write leaves every other address as it was. -/
theorem Memory.read_write_other {dflt : Option Byte} {m : Memory} {a a' : Nat} (b : Byte) (h : a' ≠ a)
    (hm : Memory.wf dflt m = true) : Memory.read dflt (Memory.write dflt m a b) a' = Memory.read dflt m a' := by
  induction m with
  | nil => simp only [Memory.write, Memory.put]; split <;> simp [Memory.read, h]
  | cons head rest ih =>
    obtain ⟨k, v⟩ := head
    obtain ⟨hk, hv, hr⟩ := Memory.wf_cons.1 hm
    simp only [Memory.write, Memory.put]
    split
    · split
      · rfl
      · simp [Memory.read, h]
    · split
      · next hak =>
        subst hak
        split <;> simp [Memory.read, h]
      · by_cases hk' : a' = k <;> simp [Memory.read, hk', ih hr]

end Sys2Proof.Machine
end

