-- ==== Sys2Proof/Laws/State.lean ====
section
/-! SUPPORT. One lemma per field per update of the state, each true by `rfl`, so that no proof unfolds a record update. -/

namespace Sys2Proof.Machine

/-! ## Updates of the whole state -/

@[simp] theorem respond_life (r : Response) (s : State) : (respond r s).life = s.life := rfl
@[simp] theorem respond_bl (r : Response) (s : State) : (respond r s).bl = s.bl := rfl
@[simp] theorem respond_fault (r : Response) (s : State) : (respond r s).fault = s.fault := rfl
@[simp] theorem respond_faultByte (r : Response) (s : State) : (respond r s).faultByte = s.faultByte := rfl
@[simp] theorem respond_busy (r : Response) (s : State) : (respond r s).busy = false := rfl
@[simp] theorem respond_seq (r : Response) (s : State) : (respond r s).seq = none := rfl
@[simp] theorem respond_trace (r : Response) (s : State) : (respond r s).trace = s.trace := rfl
@[simp] theorem respond_responses (r : Response) (s : State) : (respond r s).responses = s.responses ++ [r] := rfl
@[simp] theorem respond_port (r : Response) (s : State) : (respond r s).port = s.port := rfl
@[simp] theorem respond_inputs (r : Response) (s : State) : (respond r s).inputs = s.inputs := rfl
@[simp] theorem respond_cfg (r : Response) (s : State) : (respond r s).cfg = s.cfg := rfl

@[simp] theorem refuse_life (r : RefuseReason) (s : State) : (refuse r s).life = s.life := rfl
@[simp] theorem refuse_bl (r : RefuseReason) (s : State) : (refuse r s).bl = s.bl := rfl
@[simp] theorem refuse_fault (r : RefuseReason) (s : State) : (refuse r s).fault = s.fault := rfl
@[simp] theorem refuse_faultByte (r : RefuseReason) (s : State) : (refuse r s).faultByte = s.faultByte := rfl
@[simp] theorem refuse_busy (r : RefuseReason) (s : State) : (refuse r s).busy = s.busy := rfl
@[simp] theorem refuse_seq (r : RefuseReason) (s : State) : (refuse r s).seq = s.seq := rfl
@[simp] theorem refuse_trace (r : RefuseReason) (s : State) : (refuse r s).trace = s.trace := rfl
@[simp] theorem refuse_responses (r : RefuseReason) (s : State) : (refuse r s).responses = s.responses ++ [.refused r] := rfl
@[simp] theorem refuse_port (r : RefuseReason) (s : State) : (refuse r s).port = s.port := rfl
@[simp] theorem refuse_inputs (r : RefuseReason) (s : State) : (refuse r s).inputs = s.inputs := rfl
@[simp] theorem refuse_cfg (r : RefuseReason) (s : State) : (refuse r s).cfg = s.cfg := rfl

@[simp] theorem accept_life (i : Instr) (events : List Pending) (s : State) : (accept i events s).life = s.life := rfl
@[simp] theorem accept_bl (i : Instr) (events : List Pending) (s : State) : (accept i events s).bl = s.bl := rfl
@[simp] theorem accept_fault (i : Instr) (events : List Pending) (s : State) : (accept i events s).fault = s.fault := rfl
@[simp] theorem accept_faultByte (i : Instr) (events : List Pending) (s : State) : (accept i events s).faultByte = s.faultByte := rfl
@[simp] theorem accept_busy (i : Instr) (events : List Pending) (s : State) : (accept i events s).busy = true := rfl
@[simp] theorem accept_seq (i : Instr) (events : List Pending) (s : State) : (accept i events s).seq = some ⟨i, events, 0⟩ := rfl
@[simp] theorem accept_trace (i : Instr) (events : List Pending) (s : State) : (accept i events s).trace = s.trace := rfl
@[simp] theorem accept_responses (i : Instr) (events : List Pending) (s : State) : (accept i events s).responses = s.responses := rfl
@[simp] theorem accept_port (i : Instr) (events : List Pending) (s : State) : (accept i events s).port = s.port := rfl
@[simp] theorem accept_inputs (i : Instr) (events : List Pending) (s : State) : (accept i events s).inputs = s.inputs := rfl
@[simp] theorem accept_cfg (i : Instr) (events : List Pending) (s : State) : (accept i events s).cfg = s.cfg := rfl

@[simp] theorem record_life (e : Event) (s : State) : (record e s).life = s.life := rfl
@[simp] theorem record_bl (e : Event) (s : State) : (record e s).bl = s.bl := rfl
@[simp] theorem record_fault (e : Event) (s : State) : (record e s).fault = s.fault := rfl
@[simp] theorem record_faultByte (e : Event) (s : State) : (record e s).faultByte = s.faultByte := rfl
@[simp] theorem record_busy (e : Event) (s : State) : (record e s).busy = s.busy := rfl
@[simp] theorem record_seq (e : Event) (s : State) : (record e s).seq = s.seq := rfl
@[simp] theorem record_trace (e : Event) (s : State) : (record e s).trace = s.trace ++ [e] := rfl
@[simp] theorem record_responses (e : Event) (s : State) : (record e s).responses = s.responses := rfl
@[simp] theorem record_port (e : Event) (s : State) : (record e s).port = s.port := rfl
@[simp] theorem record_inputs (e : Event) (s : State) : (record e s).inputs = s.inputs := rfl
@[simp] theorem record_cfg (e : Event) (s : State) : (record e s).cfg = s.cfg := rfl

@[simp] theorem tick_life (n : Nat) (s : State) : (tick n s).life = s.life := rfl
@[simp] theorem tick_bl (n : Nat) (s : State) : (tick n s).bl = s.bl := rfl
@[simp] theorem tick_fault (n : Nat) (s : State) : (tick n s).fault = s.fault := rfl
@[simp] theorem tick_faultByte (n : Nat) (s : State) : (tick n s).faultByte = s.faultByte := rfl
@[simp] theorem tick_busy (n : Nat) (s : State) : (tick n s).busy = s.busy := rfl
@[simp] theorem tick_seq (n : Nat) (s : State) : (tick n s).seq = s.seq.map (fun q => ⟨q.op, q.todo, q.elapsed + n⟩) := rfl
@[simp] theorem tick_trace (n : Nat) (s : State) : (tick n s).trace = s.trace := rfl
@[simp] theorem tick_responses (n : Nat) (s : State) : (tick n s).responses = s.responses := rfl
@[simp] theorem tick_port (n : Nat) (s : State) : (tick n s).port = s.port := rfl
@[simp] theorem tick_inputs (n : Nat) (s : State) : (tick n s).inputs = s.inputs := rfl
@[simp] theorem tick_cfg (n : Nat) (s : State) : (tick n s).cfg = s.cfg := rfl

@[simp] theorem takeReset_life (s : State) : (takeReset s).life = .uninit := rfl
@[simp] theorem takeReset_bl (s : State) : (takeReset s).bl = s.cfg.blReset := rfl
@[simp] theorem takeReset_fault (s : State) : (takeReset s).fault = .none := rfl
@[simp] theorem takeReset_faultByte (s : State) : (takeReset s).faultByte = 0x00 := rfl
@[simp] theorem takeReset_busy (s : State) : (takeReset s).busy = false := rfl
@[simp] theorem takeReset_seq (s : State) : (takeReset s).seq = none := rfl
@[simp] theorem takeReset_trace (s : State) : (takeReset s).trace = [] := rfl
@[simp] theorem takeReset_responses (s : State) : (takeReset s).responses = [] := rfl
@[simp] theorem takeReset_port (s : State) : (takeReset s).port = s.port := rfl
@[simp] theorem takeReset_inputs (s : State) : (takeReset s).inputs = s.inputs.tail := rfl
@[simp] theorem takeReset_cfg (s : State) : (takeReset s).cfg = s.cfg := rfl

@[simp] theorem placeRequest_life (q : Request) (s : State) : (placeRequest q s).life = s.life := rfl
@[simp] theorem placeRequest_bl (q : Request) (s : State) : (placeRequest q s).bl = s.bl := rfl
@[simp] theorem placeRequest_fault (q : Request) (s : State) : (placeRequest q s).fault = s.fault := rfl
@[simp] theorem placeRequest_faultByte (q : Request) (s : State) : (placeRequest q s).faultByte = s.faultByte := rfl
@[simp] theorem placeRequest_busy (q : Request) (s : State) : (placeRequest q s).busy = false := rfl
@[simp] theorem placeRequest_seq (q : Request) (s : State) : (placeRequest q s).seq = none := rfl
@[simp] theorem placeRequest_trace (q : Request) (s : State) : (placeRequest q s).trace = s.trace := rfl
@[simp] theorem placeRequest_responses (q : Request) (s : State) : (placeRequest q s).responses = s.responses := rfl
@[simp] theorem placeRequest_port (q : Request) (s : State) : (placeRequest q s).port = q :: s.port := rfl
@[simp] theorem placeRequest_inputs (q : Request) (s : State) : (placeRequest q s).inputs = dropResets s.inputs := rfl
@[simp] theorem placeRequest_cfg (q : Request) (s : State) : (placeRequest q s).cfg = s.cfg := rfl

/-! ## The state after reset -/

@[simp] theorem resetOf_life (c : Config) : (State.resetOf c).life = .uninit := rfl
@[simp] theorem resetOf_bl (c : Config) : (State.resetOf c).bl = c.blReset := rfl
@[simp] theorem resetOf_fault (c : Config) : (State.resetOf c).fault = .none := rfl
@[simp] theorem resetOf_faultByte (c : Config) : (State.resetOf c).faultByte = 0x00 := rfl
@[simp] theorem resetOf_busy (c : Config) : (State.resetOf c).busy = false := rfl
@[simp] theorem resetOf_seq (c : Config) : (State.resetOf c).seq = none := rfl
@[simp] theorem resetOf_trace (c : Config) : (State.resetOf c).trace = [] := rfl
@[simp] theorem resetOf_responses (c : Config) : (State.resetOf c).responses = [] := rfl
@[simp] theorem resetOf_port (c : Config) : (State.resetOf c).port = [] := rfl
@[simp] theorem resetOf_inputs (c : Config) : (State.resetOf c).inputs = [] := rfl
@[simp] theorem resetOf_cfg (c : Config) : (State.resetOf c).cfg = c := rfl

end Sys2Proof.Machine
end

