-- ==== Sys2Proof/Laws/Ops.lean ====
section
/-! SUPPORT. What the shared operations, the meanings and a step can do, each said once: provers cite these and do not
unfold the operations again. -/

namespace Sys2Proof.Machine

/-! ## Micro-operations -/

theorem strobe_ne_nil (c : Config) (v : Byte) : strobe c v ≠ [] := by simp [strobe]

theorem sendByte_ne_nil (c : Config) (b : Byte) (rs : Bool) : sendByte c b rs ≠ [] := by simp [sendByte, strobe]

@[simp] theorem strobe_length (c : Config) (v : Byte) : (strobe c v).length = 4 := rfl

@[simp] theorem sendByte_length (c : Config) (b : Byte) (rs : Bool) : (sendByte c b rs).length = 8 := rfl

@[simp] theorem sendData_length (c : Config) (bytes : List Byte) : (sendData c bytes).length = 8 * bytes.length := by
  induction bytes with
  | nil => rfl
  | cons b rest ih => simp only [sendData, List.flatMap_cons, List.length_append, sendByte_length, List.length_cons] at ih ⊢; omega

@[simp] theorem performed_append (c : Config) (bl : Bool) (xs ys : List Pending) :
    performed c bl (xs ++ ys) = performed c bl xs ++ performed c bl ys := by
  induction xs with
  | nil => rfl
  | cons p rest ih => cases p <;> simp [performed, ih]

@[simp] theorem writesOf_append (xs ys : List Event) : writesOf (xs ++ ys) = writesOf xs ++ writesOf ys := by
  induction xs with
  | nil => rfl
  | cons e rest ih => cases e <;> simp [writesOf, ih]

@[simp] theorem waitSum_append (xs ys : List Event) : waitSum (xs ++ ys) = waitSum xs + waitSum ys := by
  simp [waitSum]

/-! ## Acceptance -/

/-- What acceptance outside `INIT` can do. -/
theorem whenReady_cases {run : State → State} {s t : State} (h : whenReady run s = .next t) :
    (s.busy = true ∧ t = s) ∨ (s.busy = false ∧ s.life = .ready ∧ t = run s) ∨
      (s.busy = false ∧ s.life ≠ .ready ∧ t = refuse .notReady s) := by
  unfold whenReady at h
  split at h
  · exact .inl ⟨‹_›, by cases h; rfl⟩
  · split at h
    · exact .inr (.inl ⟨by simpa using ‹¬ s.busy = true›, ‹_›, by cases h; rfl⟩)
    · exact .inr (.inr ⟨by simpa using ‹¬ s.busy = true›, ‹_›, by cases h; rfl⟩)

theorem whenReady_ready (run : State → State) {s : State} (h : s.Ready) : whenReady run s = .next (run s) := by
  simp [whenReady, h.1, h.2]

theorem whenReady_busy (run : State → State) {s : State} (h : s.busy = true) : whenReady run s = .next s := by
  simp [whenReady, h]

theorem whenReady_notReady (run : State → State) {s : State} (h : s.busy = false) (hl : s.life ≠ .ready) :
    whenReady run s = .next (refuse .notReady s) := by
  simp [whenReady, h, hl]

/-- What a reserved code can do. -/
theorem refuseIllegal_cases {s t : State} (h : refuseIllegal s = .next t) :
    (s.busy = true ∧ t = s) ∨ (s.busy = false ∧ t = refuse .illegalRequest s) := by
  unfold refuseIllegal at h
  split at h
  · exact .inl ⟨‹_›, by cases h; rfl⟩
  · exact .inr ⟨by simpa using ‹¬ s.busy = true›, by cases h; rfl⟩

/-! ## Every instruction but XACT -/

/-- What `exec` of an instruction of another format than XACT can do. -/
inductive Decided (i : Instr) (s : State) : State → Prop where
  /-- The block is busy: nothing. -/
  | waits (hb : s.busy = true) : Decided i s s
  /-- Refused: a response alone. -/
  | refuses (r : RefuseReason) (hb : s.busy = false) : Decided i s (refuse r s)
  /-- `INIT` accepted. -/
  | starts (hi : i = .init) (hb : s.busy = false) (hl : s.life = .uninit) :
      Decided i s (accept .init (initEvents s.cfg) { s with life := .initializing })
  /-- Another operation accepted, at the start of its own events: the instruction, or `WRCMD` of the command byte
  it encodes to. -/
  | accepts (op : Instr) (hop : op ≠ .init) (hwf : i.wf = true → op.wf = true) (hne : eventsOf s.cfg op ≠ [])
      (hid : (tableRow i).format = .req ∧ op = i ∨
        ∃ b, op = .wrcmd b ∧ (encode s.cfg i = .cmd b ∨ encode s.cfg i = .cmdFixed b))
      (hr : s.Ready) :
      Decided i s (accept op (eventsOf s.cfg op) s)
  /-- `BACKLIGHT`, done at once. -/
  | lights (on : Bool) (hi : i = .backlight on) (hr : s.Ready) :
      Decided i s (respond .done { accept (.backlight on) [] s with bl := on })
  /-- A strict `LDGLYPH` of a slot above 7, failed at once. -/
  | strict (slot : Byte) (g : Glyph) (hi : i = .ldglyph slot g) (hs : s.cfg.strictSlot = true) (hslot : 7 < slot.toNat)
      (hr : s.Ready) : Decided i s (raise .invalidSlot slot (accept (.ldglyph slot g) [] s))

theorem operate_decided {i op : Instr} {s t : State} (hop : op ≠ .init) (hwf : i.wf = true → op.wf = true)
    (hne : eventsOf s.cfg op ≠ [])
    (hid : (tableRow i).format = .req ∧ op = i ∨
      ∃ b, op = .wrcmd b ∧ (encode s.cfg i = .cmd b ∨ encode s.cfg i = .cmdFixed b))
    (h : operate op (eventsOf s.cfg op) s = .next t) : Decided i s t := by
  rcases whenReady_cases h with ⟨hb, rfl⟩ | ⟨hb, hl, rfl⟩ | ⟨hb, -, rfl⟩
  · exact .waits hb
  · exact .accepts op hop hwf hne hid ⟨hb, hl⟩
  · exact .refuses _ hb

theorem sendCommand_decided {i : Instr} {b : Byte} {s t : State}
    (hx : encode s.cfg i = .cmd b ∨ encode s.cfg i = .cmdFixed b)
    (h : sendCommand b s = .next t) : Decided i s t :=
  operate_decided (op := .wrcmd b) (by simp) (fun _ => rfl) (sendByte_ne_nil _ _ _) (.inr ⟨b, rfl, hx⟩) h

theorem refuseIllegal_decided {i : Instr} {s t : State} (h : refuseIllegal s = .next t) : Decided i s t := by
  rcases refuseIllegal_cases h with ⟨hb, rfl⟩ | ⟨hb, rfl⟩
  · exact .waits hb
  · exact .refuses _ hb

theorem exec_decided {i : Instr} {s t : State} (hx : (tableRow i).format ≠ .xact) (h : exec i s = .next t) :
    Decided i s t := by
  cases i with
  | init =>
    simp only [exec, execInit] at h
    split at h
    · cases h; exact .waits ‹_›
    · have hb : s.busy = false := by simpa using ‹¬ s.busy = true›
      split at h
      · cases h; exact .starts rfl hb ‹_›
      · cases h; exact .refuses _ hb
  | wrcmd b => exact operate_decided (op := .wrcmd b) (by simp) (fun _ => rfl) (sendByte_ne_nil _ _ _) (.inl ⟨rfl, rfl⟩) h
  | wrdata b => exact operate_decided (op := .wrdata b) (by simp) (fun _ => rfl) (sendByte_ne_nil _ _ _) (.inl ⟨rfl, rfl⟩) h
  | clear => exact operate_decided (op := .clear) (by simp) (fun _ => rfl) (by simp [eventsOf, clearEvents, sendByte_ne_nil]) (.inl ⟨rfl, rfl⟩) h
  | backlight on =>
    rcases whenReady_cases (run := fun s => respond .done { accept (.backlight on) [] s with bl := on }) h with ⟨hb, rfl⟩ | ⟨hb, hl, rfl⟩ | ⟨hb, -, rfl⟩
    · exact .waits hb
    · exact .lights on rfl ⟨hb, hl⟩
    · exact .refuses _ hb
  | scrolll => exact operate_decided (op := .scrolll) (by simp) (fun _ => rfl) (sendByte_ne_nil _ _ _) (.inl ⟨rfl, rfl⟩) h
  | scrollr => exact operate_decided (op := .scrollr) (by simp) (fun _ => rfl) (sendByte_ne_nil _ _ _) (.inl ⟨rfl, rfl⟩) h
  | setcur l c => exact operate_decided (op := .setcur l c) (by simp) (fun _ => rfl) (sendByte_ne_nil _ _ _) (.inl ⟨rfl, rfl⟩) h
  | wrstr l c text =>
    exact operate_decided (op := .wrstr l c text) (by simp) id (by simp [eventsOf, wrstrEvents, sendByte_ne_nil]) (.inl ⟨rfl, rfl⟩) h
  | ldglyph slot g =>
    simp only [exec, execLdglyph] at h
    rcases whenReady_cases h with ⟨hb, rfl⟩ | ⟨hb, hl, rfl⟩ | ⟨hb, -, rfl⟩
    · exact .waits hb
    · split
      · exact .strict slot g rfl (by simp_all) (by simp_all) ⟨hb, hl⟩
      · exact .accepts (.ldglyph slot g) (by simp) (fun _ => rfl) (by simp [eventsOf, ldglyphEvents, sendByte_ne_nil])
          (.inl ⟨rfl, rfl⟩) ⟨hb, hl⟩
    · exact .refuses _ hb
  | ldglyphs gs =>
    exact operate_decided (op := .ldglyphs gs) (by simp) id (by simp [eventsOf, ldglyphsEvents, sendByte_ne_nil]) (.inl ⟨rfl, rfl⟩) h
  | reservedB | reservedC | reservedD | reservedE | reservedF => exact refuseIllegal_decided h
  | clearDisplay | returnHome | entryModeSet | displayControl | cursorOrDisplayShift | functionSet | setCgramAddress
    | setDdramAddress => exact sendCommand_decided (.inl rfl) h
  | cmdFunctionInit | cmdDisplayInit | cmdClear | cmdEntryInit | cmdHome | cmdShiftLeft | cmdShiftRight =>
    exact sendCommand_decided (.inr rfl) h
  | xact => exact absurd rfl hx

/-- An instruction of another format than XACT always gives a next state. -/
theorem exec_next {i : Instr} (s : State) (hx : (tableRow i).format ≠ .xact) : ∃ t, exec i s = .next t := by
  have hw : ∀ run, ∃ t, whenReady run s = .next t := by
    intro run; unfold whenReady; split
    · exact ⟨_, rfl⟩
    · split <;> exact ⟨_, rfl⟩
  have hr : ∃ t, refuseIllegal s = .next t := by unfold refuseIllegal; split <;> exact ⟨_, rfl⟩
  cases i with
  | init => simp only [exec, execInit]; split <;> [skip; split] <;> exact ⟨_, rfl⟩
  | reservedB | reservedC | reservedD | reservedE | reservedF => exact hr
  | xact => exact absurd rfl hx
  | backlight on => simp only [exec, execBacklight]; exact hw _
  | ldglyph slot g => simp only [exec, execLdglyph]; exact hw _
  | _ => exact hw _

/-! ## One event of the sequencer -/

/-- After an event that is not the last the position is the next one. -/
theorem advance_more {s : State} {op : Instr} {p p' : Pending} {rest : List Pending} {t : Nat}
    (h : s.seq = some ⟨op, p :: p' :: rest, t⟩) : advance s = { s with seq := some ⟨op, p' :: rest, 0⟩ } := by
  simp [advance, h]

/-- After the last event the operation ends. -/
theorem advance_last {s : State} {op : Instr} {p : Pending} {t : Nat} (h : s.seq = some ⟨op, [p], t⟩) :
    advance s = respond .done { s with life := if op = .init then .ready else s.life } := by
  obtain ⟨life, bl, fault, faultByte, busy, seq, trace, responses, port, inputs, cfg⟩ := s
  subst h
  by_cases ho : op = .init <;> simp [advance, finish, State.running, ho]

/-- An event outstanding is the first of those still to perform. -/
theorem outstanding_some {s : State} {p : Pending} (h : s.outstanding = some p) :
    ∃ op todo t, s.seq = some ⟨op, p :: todo, t⟩ := by
  unfold State.outstanding at h
  obtain ⟨⟨op, todo, t⟩, hs, hp⟩ := Option.bind_eq_some_iff.1 h
  obtain ⟨rest, rfl⟩ := List.head?_eq_some_iff.1 hp
  exact ⟨op, rest, t, hs⟩

/-- What `raise` does, field by field. -/
theorem raise_eq (k : ErrorKind) (info : Byte) (s : State) :
    raise k info s = { s with
      life := if reportedKind k s = .initializationError then .failed else s.life
      fault := if s.fault = .none then (reportedKind k s).faultCode else s.fault
      faultByte := if s.fault = .none then info else s.faultByte
      busy := false
      seq := none
      responses := s.responses ++ [.error (reportedKind k s)] } := by
  unfold raise failLife recordFault respond
  split <;> split <;> simp_all

/-- An input the sequencer does not wait for: at most the port and the inputs change. -/
theorem passInput_cases {s : State} (hr : s.resetAsserted = false) :
    (s.inputs = [] ∧ passInput s = s) ∨
      (∃ q rest, s.inputs = .present q :: rest ∧ passInput s = { s with port := s.port ++ [q], inputs := rest }) ∨
      (∃ x rest, s.inputs = x :: rest ∧ passInput s = { s with inputs := rest }) := by
  unfold passInput
  cases hi : s.inputs with
  | nil => exact .inl ⟨rfl, rfl⟩
  | cons x rest =>
    cases x with
    | present q => exact .inr (.inl ⟨q, rest, rfl, rfl⟩)
    | answer a => exact .inr (.inr ⟨_, rest, rfl, rfl⟩)
    | elapse n => exact .inr (.inr ⟨_, rest, rfl, rfl⟩)
    | reset => simp [State.resetAsserted, hi] at hr

/-! ## The step -/

@[simp] theorem run_zero (s : State) : run 0 s = .next s := rfl

theorem run_next {s t : State} (k : Nat) (h : step s = .next t) : run (k + 1) s = run k t := by
  simp only [run, Host.Core.run]
  rw [show Sys2Proof.core.step s = .next t from h]

/-- What a step can do. -/
inductive Move (s : State) : State → Prop where
  | resets (h : s.resetAsserted = true) : Move s (takeReset s)
  /-- Nothing reached the block that it waits for, and no request is decided. -/
  | passes (h : s.resetAsserted = false) (hidle : s.busy = false → s.port = []) : Move s (passInput s)
  /-- The outstanding write is answered. -/
  | answers (h : s.resetAsserted = false) (hb : s.busy = true) (v : Byte) (hv : s.outstanding = some (.write v))
      (a : Answer) (rest : List Input) (hi : s.inputs = .answer a :: rest) :
      Move s (answered (s.issued v) a { s with inputs := rest })
  /-- Time passes on the outstanding delay, which is not over. -/
  | ticks (h : s.resetAsserted = false) (hb : s.busy = true) (n m : Nat) (hn : s.outstanding = some (.delay n))
      (rest : List Input) (hi : s.inputs = .elapse m :: rest) (hlt : s.elapsed + m < n) :
      Move s (tick m { s with inputs := rest })
  /-- The outstanding delay is over. -/
  | elapses (h : s.resetAsserted = false) (hb : s.busy = true) (n m : Nat) (hn : s.outstanding = some (.delay n))
      (rest : List Input) (hi : s.inputs = .elapse m :: rest) (hge : n ≤ s.elapsed + m) :
      Move s (advance (record (.D n) { s with inputs := rest }))
  /-- A request is decided. -/
  | decides (h : s.resetAsserted = false) (hb : s.busy = false) (q : Request) (rest : List Request)
      (hp : s.port = q :: rest) (i : Instr) (hq : decodeRequest q.word q.payload = .ok i) (t : State)
      (ht : Decided i { s with port := rest } t) : Move s t
  /-- What was presented is no request. -/
  | rejects (h : s.resetAsserted = false) (hb : s.busy = false) (q : Request) (rest : List Request)
      (hp : s.port = q :: rest) (e : Reject) (hq : decodeRequest q.word q.payload = .error e) :
      Move s (refuse .illegalRequest { s with port := rest })

theorem step_move {s t : State} (h : step s = .next t) : Move s t := by
  unfold step at h
  split at h
  · cases h; exact .resets ‹_›
  have hr : s.resetAsserted = false := by simpa using ‹¬ s.resetAsserted = true›
  split at h
  · have hb : s.busy = true := ‹_›
    unfold performNext at h
    split at h
    · next v hv =>
      cases h
      unfold awaitAnswer
      split
      · next a rest hi => exact .answers hr hb v hv a rest hi
      · exact .passes hr (by simp [hb])
    · next n hn =>
      cases h
      unfold awaitDelay
      split
      · next m rest hi =>
        split
        · next hge => exact .elapses hr hb n m hn rest hi hge
        · next hge => exact .ticks hr hb n m hn rest hi (by omega)
      · exact .passes hr (by simp [hb])
    · cases h
  · have hb : s.busy = false := by simpa using ‹¬ s.busy = true›
    unfold decideNext at h
    split at h
    · next hp => cases h; exact .passes hr (fun _ => hp)
    · next q rest hp =>
      unfold decideRequest at h
      split at h
      · next i hq =>
        refine .decides hr hb q rest hp i hq t (exec_decided (fun hx => ?_) h)
        cases i with
        | xact data bl en rs => simp [exec, execXact, State.byteOnTransport, hb] at h
        | _ => simp [tableRow] at hx
      · next e hq =>
        have : refuseIllegal { s with port := rest } = .next (refuse .illegalRequest { s with port := rest }) := by
          simp [refuseIllegal, hb]
        rw [this] at h
        cases h
        exact .rejects hr hb q rest hp e hq

end Sys2Proof.Machine
end

