-- ==== Sys2Proof/Laws/PerInstr.lean ====
section
/-! SUPPORT. The family TableRow: the encoder writes the format and the fixed bits of each instruction's row of
spec/opcode_table.json. -/

namespace Sys2Proof.Laws

/-- The code of an instruction is in its row's format and, in the default configuration, has its row's fixed bits. -/
def TableRow.Statement (i : Instr) : Prop :=
  (encode Config.default i).format = (tableRow i).format ∧ (tableRow i).accepts (encode Config.default i).word = true

/-- A request word has the fixed bits of its operation code. -/
theorem accepts_requestWord (op : BitVec 4) (a b len : Byte) (name : String) :
    Row.accepts ⟨name, .req, 0xF000000, op ++ 0#24⟩ (requestWord op a b len) = true := by
  rw [Row.accepts, beq_iff_eq]
  apply BitVec.eq_of_getLsbD_eq
  intro i hi
  rw [requestWord, BitVec.getLsbD_and, BitVec.getLsbD_append, BitVec.getLsbD_append, BitVec.getLsbD_append,
    BitVec.getLsbD_append]
  interval_cases i <;> simp

theorem TableRow.init : TableRow.Statement .init := ⟨rfl, accepts_requestWord _ _ _ _ _⟩

theorem TableRow.wrcmd (byte : Byte) : TableRow.Statement (.wrcmd byte) := ⟨rfl, accepts_requestWord _ _ _ _ _⟩

theorem TableRow.wrdata (byte : Byte) : TableRow.Statement (.wrdata byte) := ⟨rfl, accepts_requestWord _ _ _ _ _⟩

theorem TableRow.clear : TableRow.Statement .clear := ⟨rfl, accepts_requestWord _ _ _ _ _⟩

theorem TableRow.backlight (on : Bool) : TableRow.Statement (.backlight on) := ⟨rfl, accepts_requestWord _ _ _ _ _⟩

theorem TableRow.scrolll : TableRow.Statement .scrolll := ⟨rfl, accepts_requestWord _ _ _ _ _⟩

theorem TableRow.scrollr : TableRow.Statement .scrollr := ⟨rfl, accepts_requestWord _ _ _ _ _⟩

theorem TableRow.setcur (line col : Byte) : TableRow.Statement (.setcur line col) := ⟨rfl, accepts_requestWord _ _ _ _ _⟩

theorem TableRow.wrstr (line col : Byte) (text : List Byte) : TableRow.Statement (.wrstr line col text) := ⟨rfl, accepts_requestWord _ _ _ _ _⟩

theorem TableRow.ldglyph (slot : Byte) (bitmap : Glyph) : TableRow.Statement (.ldglyph slot bitmap) := ⟨rfl, accepts_requestWord _ _ _ _ _⟩

theorem TableRow.ldglyphs (bitmaps : List Glyph) : TableRow.Statement (.ldglyphs bitmaps) := ⟨rfl, accepts_requestWord _ _ _ _ _⟩

theorem TableRow.reservedB : TableRow.Statement .reservedB := ⟨rfl, accepts_requestWord _ _ _ _ _⟩

theorem TableRow.reservedC : TableRow.Statement .reservedC := ⟨rfl, accepts_requestWord _ _ _ _ _⟩

theorem TableRow.reservedD : TableRow.Statement .reservedD := ⟨rfl, accepts_requestWord _ _ _ _ _⟩

theorem TableRow.reservedE : TableRow.Statement .reservedE := ⟨rfl, accepts_requestWord _ _ _ _ _⟩

theorem TableRow.reservedF : TableRow.Statement .reservedF := ⟨rfl, accepts_requestWord _ _ _ _ _⟩

theorem TableRow.clearDisplay : TableRow.Statement .clearDisplay := by unfold TableRow.Statement; decide

theorem TableRow.returnHome (x : Bool) : TableRow.Statement (.returnHome x) := by
  unfold TableRow.Statement; revert x; decide

theorem TableRow.entryModeSet (id shift : Bool) : TableRow.Statement (.entryModeSet id shift) := by
  unfold TableRow.Statement; revert id shift; decide

theorem TableRow.displayControl (display cursor blink : Bool) : TableRow.Statement (.displayControl display cursor blink) := by
  unfold TableRow.Statement; revert display cursor blink; decide

theorem TableRow.cursorOrDisplayShift (sc rl : Bool) (x : BitVec 2) : TableRow.Statement (.cursorOrDisplayShift sc rl x) := by
  unfold TableRow.Statement; revert sc rl x; decide

theorem TableRow.functionSet (dl n f : Bool) (x : BitVec 2) : TableRow.Statement (.functionSet dl n f x) := by
  unfold TableRow.Statement; revert dl n f x; decide

theorem TableRow.setCgramAddress (addr : BitVec 6) : TableRow.Statement (.setCgramAddress addr) := by
  unfold TableRow.Statement; revert addr; decide

theorem TableRow.setDdramAddress (addr : BitVec 7) : TableRow.Statement (.setDdramAddress addr) := by
  unfold TableRow.Statement; revert addr; decide

theorem TableRow.cmdFunctionInit : TableRow.Statement .cmdFunctionInit := by unfold TableRow.Statement; decide

theorem TableRow.cmdDisplayInit : TableRow.Statement .cmdDisplayInit := by unfold TableRow.Statement; decide

theorem TableRow.cmdClear : TableRow.Statement .cmdClear := by unfold TableRow.Statement; decide

theorem TableRow.cmdEntryInit : TableRow.Statement .cmdEntryInit := by unfold TableRow.Statement; decide

theorem TableRow.cmdHome : TableRow.Statement .cmdHome := by unfold TableRow.Statement; decide

theorem TableRow.cmdShiftLeft : TableRow.Statement .cmdShiftLeft := by unfold TableRow.Statement; decide

theorem TableRow.cmdShiftRight : TableRow.Statement .cmdShiftRight := by unfold TableRow.Statement; decide

theorem TableRow.xact (data : Nibble) (bl en rs : Bool) : TableRow.Statement (.xact data bl en rs) := by
  unfold TableRow.Statement; revert data bl en rs; decide

end Sys2Proof.Laws
end

