-- ==== Sys2Proof/Tests/Slice0.lean ====
section
/-! SUPPORT. Tests. Expected values are taken from spec/: 95_test_vectors.md sections 2 to 4, the tables of 30_encoding.md and
43_cursor_resolver.md R183, or worked out by hand from the rule named. The second half holds, for every obligation with
hypotheses, a concrete state that meets them. -/

namespace Sys2Proof.Tests

open Sys2Proof.Machine

/-! ## Helpers -/

/-- The state of an outcome. -/
def nextOf : Host.Outcome State Fault Refusal → Option State
  | .next s => some s
  | .fault _ => none
  | .refused _ => none

/-- The block idle in `READY`. -/
def ready : State := { State.reset with life := .ready }

/-- The block idle in `FAILED`, as program P4a leaves it. -/
def failed : State := { State.reset with life := .failed, fault := .init, faultByte := 0x28 }

/-- The block at the given events of an operation, with the given inputs. -/
def busyAt (op : Instr) (todo : List Pending) (inputs : List Input) : State :=
  { State.reset with life := .ready, busy := true, seq := some ⟨op, todo, 0⟩, inputs := inputs }

/-- The block in `INIT` at the given events. -/
def initAt (todo : List Pending) (inputs : List Input) : State :=
  { busyAt .init todo inputs with life := .initializing }

/-- The non-default configuration of 95_test_vectors.md section 3.1. -/
def other : Config := { Config.default with dataLsb := 0, rsMask := 0x10, rwMask := 0x20, enMask := 0x40, blMask := 0x80 }

/-- A default configuration with the strict slot variant. -/
def strict : Config := { Config.default with strictSlot := true }

/-- The bitmap of 95_test_vectors.md section 3.5. -/
def heart : Glyph := ⟨0x00, 0x0A, 0x1F, 0x1F, 0x0E, 0x04, 0x00, 0x00⟩

/-- The bytes an operation writes in the default configuration. -/
def writes (bl : Bool) (i : Instr) : List Byte := writesOf (performed Config.default bl (eventsOf Config.default i))

/-! ## WellFormed: each check refuses an ill-formed term -/

theorem test_wf_wrstr_longest : (Instr.wrstr 1 0 (List.replicate 255 0x41)).wf = true := by decide +kernel
theorem test_wf_wrstr_too_long : (Instr.wrstr 1 0 (List.replicate 256 0x41)).wf = false := by decide +kernel
theorem test_wf_ldglyphs_longest : (Instr.ldglyphs (List.replicate 255 heart)).wf = true := by decide +kernel
theorem test_wf_ldglyphs_too_many : (Instr.ldglyphs (List.replicate 256 heart)).wf = false := by decide +kernel
theorem test_wf_default : Config.default.wf = true ∧ Config.default.fixedDistinct = true ∧
    Config.default.initWaitsConform = true := by decide
theorem test_wf_other : other.wf = true := by decide
theorem test_wf_mask_of_two_bits : { Config.default with enMask := 0x06 }.wf = false := by decide
theorem test_wf_mask_empty : { Config.default with rwMask := 0x00 }.wf = false := by decide
theorem test_wf_masks_equal : { Config.default with rsMask := 0x08 }.wf = false := by decide
theorem test_wf_data_field_too_high : { Config.default with dataLsb := 5 }.wf = false := by decide
theorem test_wf_mask_in_data_field : { Config.default with blMask := 0x80 }.wf = false := by decide
theorem test_wf_fixed_commands_equal : { Config.default with cmdHome := 0x01 }.fixedDistinct = false := by decide
theorem test_wf_init_waits_short :
    { Config.default with tInit := ⟨19, 19, 19, 19, 19, 19, 19, 19⟩ }.initWaitsConform = false := by decide

/-! ## Decode: words written from the spec's encodings -/

/- 30_encoding.md R100, R101 and 95_test_vectors.md sections 3.3 to 3.7. -/
theorem test_decode_init : decodeRequest 0x0000000 [] = .ok .init := by decide
theorem test_decode_wrcmd : decodeRequest 0x1280000 [] = .ok (.wrcmd 0x28) := by decide
theorem test_decode_wrdata : decodeRequest 0x241FFFF [] = .ok (.wrdata 0x41) := by decide
theorem test_decode_clear : decodeRequest 0x3000000 [] = .ok .clear := by decide
theorem test_decode_backlight : decodeRequest 0x4FE0000 [] = .ok (.backlight false) ∧
    decodeRequest 0x4010000 [] = .ok (.backlight true) := by decide
theorem test_decode_scrolll : decodeRequest 0x5000000 [] = .ok .scrolll := by decide
theorem test_decode_scrollr : decodeRequest 0x6000000 [] = .ok .scrollr := by decide
theorem test_decode_setcur : decodeRequest 0x7042C00 [] = .ok (.setcur 4 44) := by decide
theorem test_decode_wrstr : decodeRequest 0x8011203 [0x48, 0x49, 0x21] = .ok (.wrstr 1 18 [0x48, 0x49, 0x21]) := by decide
theorem test_decode_ldglyph : decodeRequest 0x9090000 heart.rows = .ok (.ldglyph 9 heart) := by decide
theorem test_decode_ldglyphs : decodeRequest 0xA000002 (heart.rows ++ heart.rows) = .ok (.ldglyphs [heart, heart]) := by
  decide
theorem test_decode_reserved : decodeRequest 0xB000000 [] = .ok .reservedB ∧ decodeRequest 0xC000000 [] = .ok .reservedC ∧
    decodeRequest 0xD000000 [] = .ok .reservedD ∧ decodeRequest 0xE000000 [0x00] = .ok .reservedE ∧
    decodeRequest 0xF123456 [] = .ok .reservedF := by decide

/- 30_encoding.md R102: a payload of another length is no request. -/
theorem test_decode_payload_wrong : decodeRequest 0x9010000 [1, 2, 3, 4, 5, 6, 7] = .error .payloadLength ∧
    decodeRequest 0x8010002 [0x41] = .error .payloadLength ∧ decodeRequest 0x0000000 [0x00] = .error .payloadLength := by
  decide

/- The table of 30_encoding.md R84, bit 7 first. -/
theorem test_decode_clearDisplay : decodeCommand 0b00000001 = .ok .clearDisplay := by decide
theorem test_decode_returnHome : decodeCommand 0b00000011 = .ok (.returnHome true) := by decide
theorem test_decode_entryModeSet : decodeCommand 0b00000110 = .ok (.entryModeSet true false) := by decide
theorem test_decode_displayControl : decodeCommand 0b00001011 = .ok (.displayControl false true true) := by decide
theorem test_decode_cursorOrDisplayShift : decodeCommand 0b00011001 = .ok (.cursorOrDisplayShift true false 0b01) := by
  decide
theorem test_decode_functionSet : decodeCommand 0b00101010 = .ok (.functionSet false true false 0b10) := by decide
theorem test_decode_setCgramAddress : decodeCommand 0b01111000 = .ok (.setCgramAddress 0x38) := by decide
theorem test_decode_setDdramAddress : decodeCommand 0b11000101 = .ok (.setDdramAddress 0x45) := by decide
theorem test_decode_no_command : decodeCommand 0x00 = .error .noCommand := by decide

/- The values of 30_encoding.md R85. -/
theorem test_decode_fixed : decodeFixed Config.default 0x28 = .ok .cmdFunctionInit ∧
    decodeFixed Config.default 0x0C = .ok .cmdDisplayInit ∧ decodeFixed Config.default 0x01 = .ok .cmdClear ∧
    decodeFixed Config.default 0x06 = .ok .cmdEntryInit ∧ decodeFixed Config.default 0x02 = .ok .cmdHome ∧
    decodeFixed Config.default 0x18 = .ok .cmdShiftLeft ∧ decodeFixed Config.default 0x1C = .ok .cmdShiftRight ∧
    decodeFixed Config.default 0x03 = .error .noFixedCommand := by decide

/- 30_encoding.md R81: `nnnnbe0r`; and the layout of section 3.1. -/
theorem test_decode_xact : decodeTransaction Config.default 0b10101101 = .ok (.xact 0xA true true true) ∧
    decodeTransaction Config.default 0b00110010 = .error .readWriteHigh ∧
    decodeTransaction other 0xD4 = .ok (.xact 0x4 true true true) := by decide

/- The numbering of opcode_table.json: a byte names the most specific row (log 14). -/
theorem test_decode_table_words : decodeTableWord 28 0xF123456 = some .reservedF ∧
    decodeTableWord 32 0x8020502 = some (.wrstr 2 5 [0x00, 0x00]) ∧ decodeTableWord 8 0x01 = some .clearDisplay ∧
    decodeTableWord 8 0x28 = some .cmdFunctionInit ∧ decodeTableWord 8 0x03 = some (.returnHome true) ∧
    decodeTableWord 8 0x00 = some (.xact 0x0 false false false) ∧ decodeTableWord 32 0x10000000 = none := by decide

/- The byte a command constructor is encoded as is the byte drawn in R84. -/
theorem test_encode_command_bytes : encode Config.default (.cursorOrDisplayShift true true 0) = .cmd 0x1C ∧
    encode Config.default (.displayControl true true true) = .cmd 0x0F ∧
    encode Config.default (.functionSet false true false 0) = .cmd 0x28 ∧
    encode Config.default (.setcur 2 5) = .req 0x7020500 [] := by decide

/-! ## Micro-operations -/

/- 95_test_vectors.md section 3.1. -/
theorem test_encodeByte : encodeByte Config.default 0xA5 true = (0xA1, 0x51) ∧
    encodeByte Config.default 0xFF false = (0xF0, 0xF0) ∧ encodeByte Config.default 0x0F true = (0x01, 0xF1) ∧
    encodeByte other 0x41 true = (0x14, 0x11) := by decide
theorem test_other_layout : xactValue other 0x3 false = 0x03 ∧
    performed other true (strobe other 0x03) = [.W 0xC3, .D 5, .W 0x83, .D 1] ∧
    writesOf (performed other true (sendByte other 0x41 true)) = [0xD4, 0x94, 0xD1, 0x91] ∧
    writesOf (performed other false (sendByte other 0x41 true)) = [0x54, 0x14, 0x51, 0x11] := by decide

/- Section 3.2. -/
theorem test_strobe : performed Config.default true (strobe Config.default 0xF1) = [.W 0xFD, .D 5, .W 0xF9, .D 1] ∧
    performed Config.default false (nib Config.default 0x2) = [.W 0x24, .D 5, .W 0x20, .D 1] := by decide

/- The table of 43_cursor_resolver.md R183 and S2. -/
theorem test_resolve : resolve 2 5 = 0x45 ∧ resolve 3 19 = 0x27 ∧ resolve 4 43 = 0x7F ∧ resolve 4 44 = 0x00 ∧
    resolve 4 255 = 0x53 ∧ resolve 0 127 = 0x7F ∧ resolve 7 3 = 0x03 := by decide

/-! ## What each operation writes: 95_test_vectors.md sections 3.3 to 3.6 -/

theorem test_writes_wrcmd : writes true (.wrcmd 0x0F) = [0x0C, 0x08, 0xFC, 0xF8] ∧
    writes true (.wrcmd 0x00) = [0x0C, 0x08, 0x0C, 0x08] := by decide
theorem test_writes_wrdata : writes true (.wrdata 0xA5) = [0xAD, 0xA9, 0x5D, 0x59] ∧
    writes false (.wrdata 0x41) = [0x45, 0x41, 0x15, 0x11] := by decide
theorem test_writes_clear : writes true .clear = [0x0C, 0x08, 0x1C, 0x18, 0x0C, 0x08, 0x2C, 0x28] ∧
    writes false .clear = [0x04, 0x00, 0x14, 0x10, 0x04, 0x00, 0x24, 0x20] := by decide
theorem test_writes_scrolls : writes true .scrolll = [0x1C, 0x18, 0x8C, 0x88] ∧
    writes true .scrollr = [0x1C, 0x18, 0xCC, 0xC8] := by decide
theorem test_writes_setcur : writes true (.setcur 4 255) = [0xDC, 0xD8, 0x3C, 0x38] ∧
    writes true (.setcur 7 3) = [0x8C, 0x88, 0x3C, 0x38] := by decide
theorem test_writes_wrstr : writes true (.wrstr 1 18 [0x48, 0x49, 0x21]) =
    [0x9C, 0x98, 0x2C, 0x28, 0x4D, 0x49, 0x8D, 0x89, 0x4D, 0x49, 0x9D, 0x99, 0x2D, 0x29, 0x1D, 0x19] ∧
    writes true (.wrstr 3 0 []) = [0x9C, 0x98, 0x4C, 0x48] := by decide
theorem test_writes_ldglyph : writes true (.ldglyph 9 heart) =
    [0x4C, 0x48, 0x8C, 0x88, 0x0D, 0x09, 0x0D, 0x09, 0x0D, 0x09, 0xAD, 0xA9, 0x1D, 0x19, 0xFD, 0xF9, 0x1D, 0x19, 0xFD, 0xF9,
     0x0D, 0x09, 0xED, 0xE9, 0x0D, 0x09, 0x4D, 0x49, 0x0D, 0x09, 0x0D, 0x09, 0x0D, 0x09, 0x0D, 0x09] := by decide
theorem test_writes_ldglyphs : writes true (.ldglyphs []) = [0x4C, 0x48, 0x0C, 0x08] ∧
    (writes true (.ldglyphs (List.replicate 9 heart))).length = 292 := by decide +kernel

/- 40_init_sequencer.md R126: the fourth and the sixth send. -/
theorem test_writes_init : ((writes true .init).drop 6).take 6 = [0x2C, 0x28, 0x2C, 0x28, 0x8C, 0x88] ∧
    ((writes true .init).drop 12).take 4 = [0x0C, 0x08, 0xCC, 0xC8] := by decide

/-! ## One step of `exec` -/

/- 40_init_sequencer.md R120. -/
theorem test_exec_init : (nextOf (exec .init State.reset)).map (fun t => (t.life, t.busy, t.seqPc, t.responses)) =
    some (.initializing, true, some 0, []) := by decide

/- 95_test_vectors.md section 3.7. -/
theorem test_exec_init_refused : exec .init ready = .next { ready with responses := [.refused .notUninit] } := by rfl
theorem test_exec_wrdata_refused :
    exec (.wrdata 0x41) State.reset = .next { State.reset with responses := [.refused .notReady] } := by rfl
theorem test_exec_clear_refused : exec .clear failed = .next { failed with responses := [.refused .notReady] } := by rfl
theorem test_exec_reserved :
    exec .reservedB State.reset = .next { State.reset with responses := [.refused .illegalRequest] } := by rfl

/- 95_test_vectors.md section 3.6: no event, `bl` set, `DONE`. -/
theorem test_exec_backlight : exec (.backlight false) ready = .next { ready with bl := false, responses := [.done] } := by
  rfl

/- 95_test_vectors.md section 3.5, strict variant: slot 9 faults, slot 7 is accepted. -/
theorem test_exec_ldglyph_strict : exec (.ldglyph 9 heart) { ready with cfg := strict } =
    .next { ready with cfg := strict, fault := .invalidSlot, faultByte := 0x09, responses := [.error .invalidSlot] } := by
  rfl
theorem test_exec_ldglyph_strict_seven :
    (nextOf (exec (.ldglyph 7 heart) { ready with cfg := strict })).map (fun t => (t.busy, t.fault)) =
      some (true, .none) := by decide

/- 45_display_ops.md R221, U7: a busy block decides nothing. -/
theorem test_exec_busy : exec .clear (busyAt .scrolll [.delay 1] []) = .next (busyAt .scrolll [.delay 1] []) := by rfl

/- 30_encoding.md R107: a command byte is `WRCMD` of the byte. -/
theorem test_exec_command_byte : exec (.displayControl true false false) ready = exec (.wrcmd 0x0C) ready ∧
    exec .cmdShiftRight ready = exec (.wrcmd 0x1C) ready := ⟨rfl, rfl⟩

/- 20_memory.md R50: the outstanding byte 0x4D of `WRDATA 0x41` is written; no other is. -/
theorem test_exec_xact :
    (nextOf (exec (.xact 0x4 true true true)
      (busyAt (.wrdata 0x41) (sendByte Config.default 0x41 true) [.answer .success]))).map (fun t => (t.trace, t.seqPc)) =
      some ([.W 0x4D], some 1) := by decide
theorem test_exec_xact_refused : exec (.xact 0x4 true true true) ready = .refused .noSuchWriteOutstanding := by rfl

/-! ## One step of the machine -/

/- 95_test_vectors.md P4a: the tenth write of `INIT` fails. -/
theorem test_step_init_fails :
    (nextOf (step (initAt ((initEvents Config.default).drop 22) [.answer .failure]))).map
      (fun t => (t.status, t.trace, t.responses)) =
      some ((.failed, true, .init, 0x28, false), [.F 0x28], [.error .initializationError]) := by rfl

/- P4b and P4c: the third write of `WRDATA 0x41` fails; the first fault is kept. -/
theorem test_step_write_fails :
    (nextOf (step (busyAt (.wrdata 0x41) ((sendByte Config.default 0x41 true).drop 4) [.answer .failure]))).map
      (fun t => (t.status, t.responses)) =
      some ((.ready, true, .transport, 0x1D, false), [.error .transportError]) := by decide
theorem test_step_second_fault_not_recorded :
    (nextOf (step { busyAt (.wrcmd 0x01) (sendByte Config.default 0x01 false) [.answer .failure] with
      fault := .transport, faultByte := 0x1D })).map (fun t => (t.status, t.trace)) =
      some ((.ready, true, .transport, 0x1D, false), [.F 0x0C]) := by decide

/- 20_memory.md R63: a delay of 5 units is not over after 4 and over after 5. -/
theorem test_step_delay_runs : (nextOf (step (busyAt .scrolll [.delay 5, .delay 1] [.elapse 4]))).map
    (fun t => (t.trace, t.elapsed, t.seq.isSome)) = some ([], 4, true) := by decide
theorem test_step_delay_ends : (nextOf (step (busyAt .scrolll [.delay 5, .delay 1] [.elapse 5]))).map
    (fun t => (t.trace, t.elapsed, t.outstanding)) = some ([.D 5], 0, some (.delay 1)) := by decide

/- 45_display_ops.md R226 and 40_init_sequencer.md R120: the end of an operation and of `INIT`. -/
theorem test_step_done : (nextOf (step (busyAt .scrolll [.delay 1] [.elapse 1]))).map
    (fun t => (t.busy, t.seq, t.responses)) = some (false, none, [.done]) := by decide
theorem test_step_init_done : (nextOf (step (initAt [.delay 20] [.elapse 20]))).map (fun t => (t.life, t.responses)) =
    some (.ready, [.done]) := by decide

/- 70_reset_and_hazards.md R302. -/
theorem test_step_reset : step { failed with inputs := [.reset], trace := [.F 0x28], bl := false } = .next State.reset := by
  rfl

/- 95_test_vectors.md section 3.7: a glyph of seven rows. -/
theorem test_step_malformed : step { ready with port := [⟨0x9010000, [1, 2, 3, 4, 5, 6, 7]⟩] } =
    .next { ready with responses := [.refused .illegalRequest] } := by rfl

/- The model's own: the placed word is what the next step runs. -/
theorem test_step_fetchWord : (nextOf (step (ready.withFetchWord 28 0x7020500))).bind (fun t => t.running) =
    some (.setcur 2 5) := by decide

/-! ## Pseudo-operations and lines: 30_encoding.md R106, R107 -/

theorem test_line_string : assembleLine "WRSTR 2, 5, \"AB\" ; S7" = some [.wrstr 2 5 [0x41, 0x42]] := by decide +kernel
theorem test_line_bitmap : assembleLine "LDGLYPH 1, [0x00,0x0A,0x1F,0x1F,0x0E,0x04,0x00,0x00]" = some [.ldglyph 1 heart] := by
  decide +kernel
theorem test_line_pseudo : assembleLine "DISPCTL 1,1,1" = some [.wrcmd 0x0F] ∧
    assembleLine "SHIFT 1, 0" = some [.wrcmd 0x18] ∧ assembleLine "WRHERE \"A\"" = some [.wrdata 0x41] := by decide +kernel
/- The model's own: a payload that no `len` counts is refused (log 30). -/
theorem test_line_payload_too_long : spellable [.wrstr 1 0 (List.replicate 256 0x41)] = none ∧
    spellable [.wrstr 1 0 (List.replicate 255 0x41)] = some [.wrstr 1 0 (List.replicate 255 0x41)] := by decide +kernel
theorem test_line_refused : assembleLine "SETCUR 2" = none ∧ assembleLine "WRCMD 256" = none := by decide +kernel

/-! ## The reference observer: 95_test_vectors.md sections 1 and 3.5 -/

theorem test_observer_half : (observeAll Config.default { Observer.powerUp with mode8 := false }
    [.W 0x4D, .D 5, .W 0x49, .D 1]).half = some (0x4, true) := by decide
theorem test_observer_cgram : (observeAll Config.default { Observer.powerUp with mode8 := false }
    (performed Config.default true (eventsOf Config.default (.ldglyph 9 ⟨0x1F, 0, 0, 0, 0, 0, 0, 0x0A⟩)))).cg =
      [(8, 0x1F), (9, 0), (10, 0), (11, 0), (12, 0), (13, 0), (14, 0), (15, 0x0A)] := by decide +kernel

/-! ## Memory -/

theorem test_memory_write : Memory.write ddDefault [(3, 0x41)] 1 0x42 = [(1, 0x42), (3, 0x41)] ∧
    Memory.write ddDefault [(3, 0x41)] 3 0x20 = [] := by decide
theorem test_memory_ill_formed : Memory.wf ddDefault [(3, 0x41), (1, 0x42)] = false ∧
    Memory.wf ddDefault [(3, 0x20)] = false := by decide

/-! ## Witnesses: for every obligation with hypotheses, values that meet them together -/

/-- The late units of each delay in the witnesses. -/
def late (k : Nat) : Nat := k

/-- `READY` and idle, with the inputs that serve the given events. -/
def served (events : List Pending) : State := { ready with inputs := serve late 0 events ++ [.reset] }

/-- `WRDATA 0x41` at its third write, the first two done. -/
def midway : State :=
  { busyAt (.wrdata 0x41) ((sendByte Config.default 0x41 true).drop 4) [.answer .success] with
    trace := [.W 0x4D, .D 5, .W 0x49, .D 1] }

/-- `WRDATA 0x41` at its last delay. -/
def atEnd : State :=
  { busyAt (.wrdata 0x41) [.delay 1] [.elapse 1] with
    trace := [.W 0x4D, .D 5, .W 0x49, .D 1, .W 0x1D, .D 5, .W 0x19] }

/-- An idle block with `CLEAR` at its port. -/
def offered : State := { ready with port := [⟨0x3000000, []⟩] }

theorem ready_Ready : ready.Ready := ⟨rfl, rfl⟩

theorem ready_inv : StateInv ready := by constructor <;> simp [ready, State.reset, State.resetOf, State.running]; decide

theorem offered_inv : StateInv offered := by
  constructor <;> simp [offered, ready, State.reset, State.resetOf, State.running]; decide

theorem failed_inv : StateInv failed := by
  constructor <;> simp [failed, State.reset, State.resetOf, State.running]; decide

theorem midway_inv : StateInv midway := by
  constructor <;> simp [midway, busyAt, State.reset, State.resetOf, State.running, timerOk, Instr.wf, eventsOf,
    List.drop_suffix]
  · decide

theorem atEnd_inv : StateInv atEnd := by
  constructor <;> simp [atEnd, busyAt, State.reset, State.resetOf, State.running, timerOk, Instr.wf, eventsOf]
  · decide
  · exact ⟨(sendByte Config.default 0x41 true).take 7, by decide⟩

theorem midway_traceInv : TraceInv midway := by
  constructor
  · show ∀ b ∈ [0x4D#8, 0x49#8], _
    decide
  · intro _
    show pulses Config.default [0x4D, 0x49, 0x1D, 0x19]
    simp only [pulses]
    decide

theorem witness_DecodeEncodeRoundTrip : Config.default.wf = true ∧ Config.default.fixedDistinct = true ∧
    (Instr.ldglyphs (List.replicate 255 heart)).wf = true := by decide +kernel

theorem witness_ByteFormatsEncodeDecode : other.wf = true ∧ decode other (.cmd 0xFF) = .ok (.setDdramAddress 0x7F) ∧
    decode other (.cmdFixed 0x1C) = .ok .cmdShiftRight ∧ decode other (.xact 0xDF) = .ok (.xact 0xF true true true) ∧
    decode other (.xact 0x20) = .error .readWriteHigh := by decide

theorem witness_OpcodeMapIgnoresUnusedFields : (List.replicate 255 (0x00 : Byte)).length ≤ 255 ∧
    (List.replicate 255 heart).length ≤ 255 := by decide +kernel

theorem witness_DecoderFollowsOpcodeTable : (tableRow (.wrcmd 0)).format = (tableRow (.wrcmd 1)).format ∧
    (tableRow (.wrcmd 0)).accepts 0x1FFFFFF = true ∧ (tableRow (.wrcmd 1)).accepts 0x1FFFFFF = true ∧
    decode Config.default (.cmd 0x1C) = .ok (.cursorOrDisplayShift true true 0) := by decide

theorem witness_TransactionValueFields : other.wf = true := by decide
theorem witness_StrobeBytesDifferInEnable : other.wf = true := by decide
theorem witness_EncoderProperties : other.wf = true ∧ encodeByte other 0x41 true = encodeByte other 0x41 true := by decide
theorem witness_MicroOperationTraces : other.wf = true := by decide

theorem witness_ResolvedAddress : (0 : Byte) ∉ ([1, 2, 3, 4] : List Byte) ∧ (5 : Byte) ∉ ([1, 2, 3, 4] : List Byte) ∧
    (43 : Byte).toNat ≤ 43 := by decide

theorem witness_OperationSizes : (Instr.ldglyphs [], 4, 12) ∈
    [(Instr.clear, 8, 24), (.ldglyphs [], 4 + 32 * ([] : List Glyph).length, 12 + 96 * ([] : List Glyph).length)] := by
  simp

theorem witness_InitCompletes : State.reset.busy = false ∧ State.reset.life = .uninit ∧
    { State.reset with inputs := serve late 0 (initEvents Config.default) ++ [] }.inputs =
      serve late 0 (initEvents Config.default) ++ [] := ⟨rfl, rfl, rfl⟩

theorem witness_ByteRequestsComplete : (served (sendByte Config.default 0xFF true)).Ready ∧
    (served (sendByte Config.default 0xFF true)).inputs =
      serve late 0 (sendByte Config.default 0xFF true) ++ [.reset] := ⟨⟨rfl, rfl⟩, rfl⟩

theorem witness_ClearAndScrollsComplete : (served (clearEvents Config.default)).Ready ∧
    (served (clearEvents Config.default)).inputs = serve late 0 (clearEvents Config.default) ++ [.reset] :=
  ⟨⟨rfl, rfl⟩, rfl⟩

theorem witness_BacklightCompletes : ready.Ready := ready_Ready

theorem witness_CursorRequestsComplete : (served (wrstrEvents Config.default 255 255 [0xFF])).Ready ∧
    (served (wrstrEvents Config.default 255 255 [0xFF])).inputs =
      serve late 0 (wrstrEvents Config.default 255 255 [0xFF]) ++ [.reset] := ⟨⟨rfl, rfl⟩, rfl⟩

theorem witness_GlyphRequestsComplete : ready.Ready ∧ (ready.cfg.strictSlot = false ∨ (255 : Byte).toNat ≤ 7) ∧
    { ready with cfg := strict }.Ready ∧ (strict.strictSlot = false ∨ (7 : Byte).toNat ≤ 7) :=
  ⟨ready_Ready, .inl rfl, ⟨rfl, rfl⟩, .inr (by decide)⟩

theorem witness_StrictSlotFaults : { ready with cfg := strict }.Ready ∧ strict.strictSlot = true ∧ 7 < (8 : Byte).toNat :=
  ⟨⟨rfl, rfl⟩, rfl, by decide⟩

theorem witness_ReservedCodesRefused : State.reset.busy = false ∧
    Instr.reservedF ∈ [Instr.reservedB, .reservedC, .reservedD, .reservedE, .reservedF] := by decide

theorem witness_CommandBytesComplete : ready.Ready ∧ (Instr.returnHome true, (0b0000001#7 ++ BitVec.ofBool true : Byte)) ∈
    [(Instr.clearDisplay, (0b00000001#8 : Byte)), (.returnHome true, (0b0000001#7 ++ BitVec.ofBool true : Byte))] :=
  ⟨ready_Ready, by decide⟩

theorem witness_FixedCommandsComplete : ready.Ready ∧ (Instr.cmdHome, ready.cfg.cmdHome) ∈
    [(Instr.cmdClear, ready.cfg.cmdClear), (.cmdHome, ready.cfg.cmdHome)] := ⟨ready_Ready, by decide⟩

theorem witness_TransactionWritten : midway.busy = true ∧
    midway.seq = some ⟨.wrdata 0x41, .write 0x15 :: .delay 5 :: [.write 0x11, .delay 1], 0⟩ ∧
    transactionByte midway.cfg 0x1 true true true = 0x15 ||| blv midway.cfg midway.bl ∧
    midway.inputs = .answer .success :: [] ∧ { midway with inputs := [] }.inputs = [] ∧
    ready.byteOnTransport ≠ some (transactionByte ready.cfg 0x1 true true true) := by decide

theorem witness_LifecycleRefusals : ready.busy = false ∧ ready.life ≠ .uninit ∧ failed.busy = false ∧
    failed.life ≠ .ready ∧ Instr.cmdHome ≠ .init ∧ (tableRow .cmdHome).format ≠ .xact ∧
    Instr.cmdHome ∉ [Instr.reservedB, .reservedC, .reservedD, .reservedE, .reservedF] := by decide

theorem witness_BusyBlockDecidesNothing : midway.busy = true ∧ (tableRow .clear).format ≠ .xact ∧
    StateInv { midway with inputs := [.present ⟨0, []⟩] } :=
  ⟨rfl, by decide, by
    obtain ⟨a, b, c, d, e, f, g, h, i, j⟩ := midway_inv
    exact ⟨a, b, c, d, e, f, g, h, i, j⟩⟩

theorem witness_MalformedRequestRefused :
    (ready.busy = false ∧ ready.resetAsserted = false) ∧ 11 ≤ (0xB : BitVec 4).toNat ∧
    (List.replicate 254 (0x00 : Byte)).length ≠ (255 : Byte).toNat ∧ (List.replicate 7 (0x00 : Byte)).length ≠ 8 ∧
    (List.replicate 15 (0x00 : Byte)).length ≠ 8 * (2 : Byte).toNat ∧ [(0x00 : Byte)].length ≠ 0 := by decide +kernel

theorem witness_StepRunsDecodedRequest : offered.busy = false ∧ offered.resetAsserted = false ∧
    offered.port = ⟨0x3000000, []⟩ :: [] ∧ decodeRequest 0x3000000 [] = .ok .clear := by decide

theorem witness_StepRunsOutstandingTransaction : midway.cfg.wf = true ∧ midway.busy = true ∧
    midway.resetAsserted = false ∧ midway.seq = some ⟨.wrdata 0x41, .write 0x15 :: [.delay 5, .write 0x11, .delay 1], 0⟩ ∧
    decode midway.cfg (.xact (0x15 ||| blv midway.cfg midway.bl)) = .ok (.xact 0x1 true true true) := by decide

theorem witness_FetchWordRunsNext : State.reset.cfg = Config.default ∧ decodeTableWord 28 0x0000000 = some .init ∧
    (tableRow .init).format ≠ .xact ∧ decodeTableWord 8 0x00 = some (.xact 0 false false false) ∧
    (tableRow (.xact 0 false false false)).format = .xact := by decide

theorem witness_FailedWriteAborts :
    { midway with inputs := [.answer .failure] }.busy = true ∧
    { midway with inputs := [.answer .failure] }.seq =
      some ⟨.wrdata 0x41, .write 0x15 :: [.delay 5, .write 0x11, .delay 1], 0⟩ ∧
    { midway with inputs := [.answer .failure] }.inputs = .answer .failure :: [] ∧ Instr.wrdata 0x41 ≠ .init ∧
    (initAt [.write 0x30, .delay 1] [.answer .failure]).seq = some ⟨.init, .write 0x30 :: [.delay 1], 0⟩ := by decide

theorem witness_DelayHoldsItsTime : (busyAt .clear [.delay 5, .delay 1] [.elapse 4]).busy = true ∧
    (busyAt .clear [.delay 5, .delay 1] [.elapse 4]).seq = some ⟨.clear, .delay 5 :: [.delay 1], 0⟩ ∧
    (busyAt .clear [.delay 5, .delay 1] [.elapse 4]).inputs = .elapse 4 :: [] ∧ 0 + 4 < 5 ∧ 5 ≤ 0 + 5 ∧
    [Pending.delay 1] ≠ [] ∧ (initAt [.delay 20] [.elapse 20]).seq = some ⟨.init, .delay 20 :: [], 0⟩ ∧ 20 ≤ 0 + 20 := by
  decide

theorem witness_WaitsWithoutInput : StateInv ready ∧ ready.inputs = [] ∧ ready.port = [] ∧
    StateInv { midway with inputs := [] } ∧ { midway with inputs := [] }.busy = true :=
  ⟨ready_inv, rfl, rfl, by
    obtain ⟨a, b, c, d, e, f, g, h, i, j⟩ := midway_inv
    exact ⟨a, b, c, d, e, f, g, h, i, j⟩, rfl⟩

theorem witness_ResetLeavesResetValues : { midway with inputs := [.reset] }.inputs = .reset :: [] := rfl

theorem witness_OperationRunsToDone : midway.seq.isSome = true ∧ midway.busy = true ∧
    (busyAt .init (initEvents Config.default) (serve late 0 (initEvents Config.default))).inputs =
      serve late 0 (initEvents Config.default) ++ [] ∧ initEvents Config.default ≠ [] := by
  refine ⟨rfl, rfl, ?_, by decide⟩
  simp [busyAt]

theorem witness_OperationAbortsAtFailedWrite :
    (busyAt .scrolll ([.write 0x14, .delay 5] ++ .write 0x10 :: [.delay 1])
      (serve late 0 [.write 0x14, .delay 5] ++ [.answer .failure])).busy = true ∧
    (busyAt .scrolll ([.write 0x14, .delay 5] ++ .write 0x10 :: [.delay 1])
      (serve late 0 [.write 0x14, .delay 5] ++ [.answer .failure])).inputs =
        serve late 0 [.write 0x14, .delay 5] ++ .answer .failure :: [] := ⟨rfl, rfl⟩

/-- Requests that do not decode to `INIT`: `CLEAR`, and a glyph of one row. -/
def waiting : List Request := [⟨0x3000000, []⟩, ⟨0x9010000, [0x00]⟩]

/-- The request word of `INIT`. -/
def initRequest : Request := ⟨0x0000000, []⟩

theorem witness_ResetThenInitRecovers :
    (∀ w ∈ waiting, decodeRequest w.word w.payload ≠ .ok .init) ∧ decodeRequest 0x0000000 [] = .ok .init ∧
    ({ failed with
        port := waiting
        inputs := .reset :: .present ⟨0x0000000, []⟩ :: (serve late 0 (initEvents failed.cfg) ++ []) }.inputs =
      .reset :: .present ⟨0x0000000, []⟩ :: (serve late 0 (initEvents failed.cfg) ++ [])) ∧
    { midway with port := waiting ++ initRequest :: waiting }.port = waiting ++ initRequest :: waiting := by
  refine ⟨?_, by decide, rfl, rfl⟩
  simp only [waiting, List.forall_mem_cons]
  exact ⟨by decide, by decide, by simp⟩

theorem witness_InvariantsAtReset : other.wf = true := by decide

theorem witness_StepKeepsInvariant : StateInv midway ∧ (nextOf (step midway)).isSome = true := ⟨midway_inv, by decide⟩

theorem witness_StepNeverStops : StateInv midway := midway_inv

theorem witness_StepKeepsTraceInvariant : StateInv midway ∧ TraceInv midway ∧ (nextOf (step midway)).isSome = true :=
  ⟨midway_inv, midway_traceInv, by decide⟩

theorem witness_BacklightBitInEveryWrite : StateInv midway ∧
    (nextOf (step midway)).map (·.trace) = some (midway.trace ++ [.W 0x1D]) ∧ midway.busy = true ∧
    midway.resetAsserted = false := ⟨midway_inv, by decide, rfl, rfl⟩

theorem witness_ReadWriteLineStaysLow : other.wf = true ∧ StateInv midway ∧
    (nextOf (step midway)).map (·.trace) = some (midway.trace ++ [.W 0x1D]) := ⟨by decide, midway_inv, by decide⟩

theorem witness_OneEventPerStep : (nextOf (step midway)).isSome = true ∧ midway.resetAsserted = false := by decide

theorem witness_OneResponsePerRequest :
    (StateInv midway ∧ (nextOf (step midway)).map (·.busy) = some true ∧ midway.resetAsserted = false) ∧
    (StateInv atEnd ∧ atEnd.busy = true ∧ (nextOf (step atEnd)).map (·.busy) = some false) ∧
    (StateInv { offered with port := [⟨0xB000000, []⟩] } ∧
      (nextOf (step { offered with port := [⟨0xB000000, []⟩] })).map (·.busy) = some false) ∧
    (StateInv ready ∧ ready.busy = false ∧ ready.port = []) := by
  refine ⟨⟨midway_inv, by decide, rfl⟩, ⟨atEnd_inv, rfl, by decide⟩, ⟨?_, by decide⟩, ready_inv, rfl, rfl⟩
  obtain ⟨a, b, c, d, e, f, g, h, i, j⟩ := offered_inv
  exact ⟨a, b, c, d, e, f, g, h, i, j⟩

/-- `INIT` at its last delay. -/
def initEnd : State := initAt [.delay 20] [.elapse 20]

theorem initEnd_inv : StateInv initEnd := by
  constructor <;> simp [initEnd, initAt, busyAt, State.reset, State.resetOf, State.running, timerOk, Instr.wf, eventsOf]
  · decide
  · exact ⟨(initEvents Config.default).take 55, by decide +kernel⟩

theorem witness_LifecycleTransitions : StateInv (State.resetOf .default) ∧ (State.resetOf .default).resetAsserted = false ∧
    (nextOf (step (State.resetOf .default))).isSome = true ∧ StateInv failed ∧ (nextOf (step failed)).isSome = true ∧
    StateInv initEnd ∧ (nextOf (step initEnd)).map (·.life) = some .ready :=
  ⟨by constructor <;> simp [State.resetOf, State.running]; decide, rfl, by decide, failed_inv, by decide, initEnd_inv,
    by decide⟩

theorem witness_FailedBlockRefusesUntilReset :
    StateInv { failed with port := [⟨0x3000000, []⟩] } ∧ failed.life = .failed ∧ failed.resetAsserted = false ∧
    (nextOf (step { failed with port := [⟨0x3000000, []⟩] })).isSome = true := by
  refine ⟨?_, rfl, rfl, by decide⟩
  obtain ⟨a, b, c, d, e, f, g, h, i, j⟩ := failed_inv
  exact ⟨a, b, c, d, e, f, g, h, i, j⟩

theorem witness_FirstFaultSticks : (nextOf (step { midway with inputs := [.answer .failure] })).map (·.fault) =
    some .transport ∧ midway.fault = .none ∧ { midway with inputs := [.answer .failure] }.resetAsserted = false ∧
    failed.fault ≠ .none ∧ (nextOf (step failed)).isSome = true := by decide

theorem witness_BacklightAndConfigurationWriters :
    (nextOf (step { ready with port := [⟨0x4000000, []⟩] })).map (·.bl) = some false ∧ ready.bl = true ∧
    ready.resetAsserted = false := by decide

theorem witness_SequencerPosition : StateInv midway ∧ midway.busy = true ∧ midway.resetAsserted = false ∧
    (nextOf (step midway)).map (·.busy) = some true ∧ StateInv offered ∧ offered.busy = false ∧
    (nextOf (step offered)).map (·.busy) = some true :=
  ⟨midway_inv, rfl, rfl, by decide, offered_inv, rfl, by decide⟩

theorem witness_PortDoesNotReachOperation : midway.busy = true ∧ (nextOf (step midway)).isSome = true := by decide

theorem witness_RequestFrame : (tableRow (.ldglyph 8 heart)).format ≠ .xact ∧
    (nextOf (exec (.ldglyph 8 heart) { ready with cfg := strict })).isSome = true ∧ (tableRow .init).format ≠ .xact ∧
    (nextOf (exec .init State.reset)).isSome = true ∧ (nextOf (exec .clearDisplay ready)).map (·.running) =
      some (some (.wrcmd 0x01)) := by decide

theorem witness_TransactionFrame : midway.resetAsserted = false ∧
    (nextOf (exec (.xact 0x1 true true true) midway)).isSome = true ∧
    (nextOf (exec (.xact 0x1 true true true) { midway with inputs := [.present ⟨0, []⟩] })).map (·.port) =
      some [⟨0, []⟩] := by decide

theorem witness_ObserverExecutesSentByte : other.wf = true ∧ { Observer.powerUp with mode8 := false }.mode8 = false ∧
    { Observer.powerUp with mode8 := false }.half = none := by decide

theorem witness_PreambleSynchronisesObserver : other.wf = true := by decide

theorem witness_ScrollsCancel : { Observer.powerUp with mode8 := false }.mode8 = false ∧
    { Observer.powerUp with mode8 := false }.half = none := by decide

theorem witness_StringsAndGlyphsReachController : { Observer.powerUp with mode8 := false }.mode8 = false ∧
    { Observer.powerUp with mode8 := false }.half = none ∧ Memory.wf ddDefault Observer.powerUp.dd = true ∧
    Memory.wf cgDefault Observer.powerUp.cg = true ∧ (List.replicate 255 (0x41 : Byte)).length ≤ 127 + 128 ∧
    7 < heart.rows.length ∧ 8 < ([heart, heart].flatMap Glyph.rows).length ∧
    ((List.replicate 9 heart).flatMap Glyph.rows).length ≤ 8 + 64 := by decide +kernel

end Sys2Proof.Tests
end

section
/-! Proofs of the encoding statements (30_encoding.md R82, R83, R87, R88): nibbles, transaction values, the two bytes of a
strobe, and the CGRAM address of a slot. -/

namespace Sys2Proof.Machine

/-! ## Nibbles (R88) -/

theorem toNat_hiNibble (b : Byte) : (hiNibble b).toNat = b.toNat / 16 := by
  rw [hiNibble, BitVec.extractLsb'_toNat, Nat.shiftRight_eq_div_pow]
  omega

theorem toNat_loNibble (b : Byte) : (loNibble b).toNat = b.toNat % 16 := by
  rw [loNibble, BitVec.extractLsb'_toNat, Nat.shiftRight_zero]

theorem hiNibble_append_loNibble (b : Byte) : hiNibble b ++ loNibble b = b := by
  apply BitVec.eq_of_toNat_eq
  rw [BitVec.toNat_append, ← Nat.shiftLeft_add_eq_or_of_lt (loNibble b).isLt, Nat.shiftLeft_eq, toNat_hiNibble,
    toNat_loNibble]
  omega

/-- Settles O8: the high nibble is the quotient by 16 and the low nibble the remainder. -/
theorem nibblesReassembleByte : Obligations.NibblesReassembleByte := by
  intro b
  refine ⟨rfl, rfl, hiNibble_append_loNibble b, ?_⟩
  rw [toNat_hiNibble, toNat_loNibble]
  omega

/-! ## Transaction values (R82) -/

/-- In the default layout the data field stands in bits 7:4 and RS in bit 0. -/
theorem xactValue_default (nib : Nibble) (rs : Bool) :
    xactValue Config.default nib rs = nib ++ 0b000#3 ++ BitVec.ofBool rs := by
  revert nib rs
  decide

/-- Settles O6: the fields are those of `xactValue_fields`, the concatenation is `xactValue_default`. -/
theorem transactionValueFields : Obligations.TransactionValueFields := by
  refine ⟨fun c nib rs h => ⟨rfl, xactValue_fields h nib rs⟩, xactValue_default, ?_, ?_, ?_, ?_⟩ <;>
    exact xactValue_default _ _

/-! ## The two bytes of a strobe (R83) -/

theorem lineHigh_eq_false_iff {m b : Byte} : lineHigh m b = false ↔ b &&& m = 0 := by
  simp [lineHigh]

/-- Putting in bits that a word does not have changes those bits and no others. -/
theorem or_xor_self_of_and_eq_zero {w : Nat} {x m : BitVec w} (h : x &&& m = 0#w) : (x ||| m) ^^^ x = m := by
  ext i hi
  have hbit : (x[i] && m[i]) = false := by rw [← BitVec.getElem_and, h, BitVec.getElem_zero]
  rw [BitVec.getElem_xor, BitVec.getElem_or]
  revert hbit
  cases x[i] <;> cases m[i] <;> decide

/-- The enable-high byte of a transaction value differs from its enable-low byte in the EN line and in nothing else. -/
theorem xactValue_enableHigh_xor_enableLow {c : Config} (h : c.wf = true) (nib : Nibble) (rs bl : Bool) :
    (xactValue c nib rs ||| c.enMask ||| blv c bl) ^^^ (xactValue c nib rs ||| blv c bl) = c.enMask := by
  have hlow : (xactValue c nib rs ||| blv c bl) &&& c.enMask = 0 := by
    obtain ⟨-, -, hen, -⟩ := fields_transactionByte h nib bl false rs
    rw [xactValue_enableLow]
    exact lineHigh_eq_false_iff.mp hen
  have hswap : xactValue c nib rs ||| c.enMask ||| blv c bl = xactValue c nib rs ||| blv c bl ||| c.enMask := by ac_rfl
  rw [hswap, or_xor_self_of_and_eq_zero hlow]

/-- Settles O7: a transaction value has EN low, so the strobe raises exactly that line and lowers it again. -/
theorem strobeBytesDifferInEnable : Obligations.StrobeBytesDifferInEnable := by
  refine ⟨fun c nib rs bl h => ⟨rfl, ?_, xactValue_enableHigh_xor_enableLow h nib rs bl⟩, by decide, by decide⟩
  rw [xactValue_and_not_enable h]

/-! ## Slot addresses (R87) -/

theorem toNat_and_seven (slot : Byte) : (slot &&& 0x07).toNat = slot.toNat % 8 := by
  rw [BitVec.toNat_and]
  exact Nat.and_two_pow_sub_one_eq_mod slot.toNat 3

theorem toNat_slotAddress (slot : Byte) : (slotAddress slot).toNat = slot.toNat % 8 * 8 := by
  have eight : (8 : Byte).toNat = 8 := rfl
  rw [slotAddress, BitVec.toNat_mul, toNat_and_seven, eight]
  omega

/-- A slot address is one of the eight multiples of 8 below 64. -/
theorem exists_slotAddress_eq (slot : Byte) : ∃ k < 8, slotAddress slot = BitVec.ofNat 8 (k * 8) := by
  refine ⟨slot.toNat % 8, Nat.mod_lt _ (by decide), ?_⟩
  rw [← toNat_slotAddress, BitVec.ofNat_toNat, BitVec.setWidth_eq]

/-- Settles O13: the address is computed as a number, its eight values and command bytes are listed, and the events of the
two operations begin with the command byte by definition. -/
theorem slotAddressing : Obligations.SlotAddressing := by
  have hlisted : ∀ k < 8, BitVec.ofNat 8 (k * 8) ∈ ([0, 8, 16, 24, 32, 40, 48, 56] : List Byte) ∧
      setCgramCommand Config.default (BitVec.ofNat 8 (k * 8)) ∈
        ([0x40, 0x48, 0x50, 0x58, 0x60, 0x68, 0x70, 0x78] : List Byte) := by decide
  refine ⟨fun slot => ⟨toNat_slotAddress slot, toNat_and_seven slot, ?_⟩, by decide, fun _ _ _ => rfl, fun _ _ => rfl⟩
  obtain ⟨k, hk, hslot⟩ := exists_slotAddress_eq slot
  rw [hslot]
  exact hlisted k hk

end Sys2Proof.Machine
end

section
/-! Proofs of the strobe statements (42_nibble_strobe.md R161, R164): every byte an operation sends is a transaction byte
that carries the backlight, a step writes no other byte, and a busy block keeps its backlight. -/

namespace Sys2Proof.Machine

/-! ## What the operations send (R160, R166) -/

/-- Every byte these events write is, under the backlight `bl`, the transaction byte of some fields. -/
def SendsTransactions (c : Config) (bl : Bool) (events : List Pending) : Prop :=
  ∀ x ∈ writesOf (performed c bl events), ∃ data en rs, x = transactionByte c data bl en rs

section
variable {c : Config} {bl : Bool}

@[simp] theorem sendsTransactions_nil : SendsTransactions c bl [] := fun _ hx => absurd hx List.not_mem_nil

@[simp] theorem sendsTransactions_delay_cons (n : Nat) (rest : List Pending) :
    SendsTransactions c bl (.delay n :: rest) ↔ SendsTransactions c bl rest := Iff.rfl

@[simp] theorem sendsTransactions_append (xs ys : List Pending) :
    SendsTransactions c bl (xs ++ ys) ↔ SendsTransactions c bl xs ∧ SendsTransactions c bl ys := by
  simp only [SendsTransactions, performed_append, writesOf_append, List.forall_mem_append]

/-- A strobe writes the transaction byte of its nibble twice: with EN high, then with EN low. -/
theorem writesOf_strobe (h : c.wf = true) (n : Nibble) (rs : Bool) :
    writesOf (performed c bl (strobe c (xactValue c n rs))) =
      [transactionByte c n bl true rs, transactionByte c n bl false rs] := by
  simp only [strobe, performed, writesOf, xactValue_and_not_enable h, xactValue_enableHigh, xactValue_enableLow]

theorem sendsTransactions_strobe (h : c.wf = true) (n : Nibble) (rs : Bool) :
    SendsTransactions c bl (strobe c (xactValue c n rs)) := by
  intro x hx
  rw [writesOf_strobe h, List.mem_pair] at hx
  rcases hx with rfl | rfl
  · exact ⟨n, true, rs, rfl⟩
  · exact ⟨n, false, rs, rfl⟩

theorem sendsTransactions_sendByte (h : c.wf = true) (b : Byte) (rs : Bool) :
    SendsTransactions c bl (sendByte c b rs) :=
  (sendsTransactions_append _ _).mpr ⟨sendsTransactions_strobe h _ rs, sendsTransactions_strobe h _ rs⟩

theorem sendsTransactions_sendData (h : c.wf = true) (bytes : List Byte) :
    SendsTransactions c bl (sendData c bytes) := by
  induction bytes with
  | nil => exact sendsTransactions_nil
  | cons b rest ih => exact (sendsTransactions_append _ _).mpr ⟨sendsTransactions_sendByte h b true, ih⟩

theorem sendsTransactions_initEvents (h : c.wf = true) : SendsTransactions c bl (initEvents c) := by
  simp [initEvents, nib, sendsTransactions_strobe h, sendsTransactions_sendByte h]

/-- The events of an operation are strobes and delays, so each of their writes is a transaction byte. -/
theorem sendsTransactions_eventsOf (h : c.wf = true) (op : Instr) : SendsTransactions c bl (eventsOf c op) := by
  have command := fun b => sendsTransactions_sendByte (bl := bl) h b false
  have data := fun bytes => sendsTransactions_sendData (bl := bl) h bytes
  cases op with
  | init => exact sendsTransactions_initEvents h
  | wrdata b => exact sendsTransactions_sendByte h b true
  | wrcmd | scrolll | scrollr | setcur => exact command _
  | clear => exact (sendsTransactions_append _ _).mpr ⟨command _, command _⟩
  | wrstr | ldglyph | ldglyphs => exact (sendsTransactions_append _ _).mpr ⟨command _, data _⟩
  | _ => exact sendsTransactions_nil

/-- A pending write is issued with the backlight merged. -/
theorem mem_writesOf_performed {v : Byte} {events : List Pending} (hv : Pending.write v ∈ events) :
    v ||| blv c bl ∈ writesOf (performed c bl events) := by
  induction events with
  | nil => cases hv
  | cons p rest ih =>
    rcases List.mem_cons.mp hv with rfl | hrest
    · exact List.mem_cons_self
    · cases p with
      | write w => exact List.mem_cons_of_mem _ (ih hrest)
      | delay n => exact ih hrest

end

/-- The outstanding event of a block in the invariant is one of its operation's events. -/
theorem StateInv.outstanding_mem {s : State} {p : Pending} (inv : StateInv s) (hp : s.outstanding = some p) :
    ∃ op, p ∈ eventsOf s.cfg op := by
  obtain ⟨op, todo, t, hseq⟩ := outstanding_some hp
  obtain ⟨-, hsuffix, -⟩ := inv.position _ hseq
  exact ⟨op, hsuffix.subset List.mem_cons_self⟩

/-- The byte issued at the outstanding write is a transaction byte with the backlight of now. -/
theorem StateInv.issued_eq_transactionByte {s : State} {v : Byte} (inv : StateInv s)
    (hv : s.outstanding = some (.write v)) : ∃ data en rs, s.issued v = transactionByte s.cfg data s.bl en rs := by
  obtain ⟨op, hmem⟩ := inv.outstanding_mem hv
  exact sendsTransactions_eventsOf inv.config op _ (mem_writesOf_performed hmem)

/-! ## What a step does to the trace and the backlight -/

theorem finish_trace (s : State) : (finish s).trace = s.trace := by
  unfold finish; split <;> rfl

theorem finish_bl (s : State) : (finish s).bl = s.bl := by
  unfold finish; split <;> rfl

@[simp] theorem advance_trace (s : State) : (advance s).trace = s.trace := by
  unfold advance
  split
  · rfl
  · split
    · exact finish_trace s
    · rfl

@[simp] theorem advance_bl (s : State) : (advance s).bl = s.bl := by
  unfold advance
  split
  · rfl
  · split
    · exact finish_bl s
    · rfl

@[simp] theorem raise_trace (k : ErrorKind) (info : Byte) (s : State) : (raise k info s).trace = s.trace := by
  rw [raise_eq]

@[simp] theorem raise_bl (k : ErrorKind) (info : Byte) (s : State) : (raise k info s).bl = s.bl := by
  rw [raise_eq]

@[simp] theorem answered_bl (x : Byte) (a : Answer) (s : State) : (answered x a s).bl = s.bl := by
  cases a <;> simp [answered]

/-- An answered write adds the byte to the trace, as `W` or as `F`. -/
theorem answered_trace (x : Byte) (a : Answer) (s : State) :
    ∃ e, (e = .W x ∨ e = .F x) ∧ (answered x a s).trace = s.trace ++ [e] := by
  cases a with
  | success => exact ⟨.W x, .inl rfl, by simp [answered]⟩
  | failure => exact ⟨.F x, .inr rfl, by simp [answered]⟩

theorem passInput_trace {s : State} (hr : s.resetAsserted = false) : (passInput s).trace = s.trace := by
  rcases passInput_cases hr with ⟨-, h⟩ | ⟨q, rest, -, h⟩ | ⟨x, rest, -, h⟩ <;> rw [h]

theorem passInput_bl {s : State} (hr : s.resetAsserted = false) : (passInput s).bl = s.bl := by
  rcases passInput_cases hr with ⟨-, h⟩ | ⟨q, rest, -, h⟩ | ⟨x, rest, -, h⟩ <;> rw [h]

/-- Deciding a request performs no event. -/
theorem Decided.trace_eq {i : Instr} {s t : State} (h : Decided i s t) : t.trace = s.trace := by
  cases h <;> simp

/-- The trace after a step that is no reset: as it was, or longer by the outstanding event that was completed. -/
theorem Move.trace_cases {s t : State} (h : Move s t) (hr : s.resetAsserted = false) :
    t.trace = s.trace ∨
    (∃ v e, s.outstanding = some (.write v) ∧ (e = .W (s.issued v) ∨ e = .F (s.issued v)) ∧
      t.trace = s.trace ++ [e]) ∨
    (∃ n, s.outstanding = some (.delay n) ∧ t.trace = s.trace ++ [.D n]) := by
  cases h with
  | resets h => simp [h] at hr
  | passes => exact .inl (passInput_trace hr)
  | answers _ _ v hv a rest =>
    obtain ⟨e, he, htrace⟩ := answered_trace (s.issued v) a { s with inputs := rest }
    exact .inr (.inl ⟨v, e, hv, he, htrace⟩)
  | ticks => exact .inl rfl
  | elapses _ _ n _ hn => exact .inr (.inr ⟨n, hn, by simp⟩)
  | decides _ _ _ _ _ _ _ _ ht => exact .inl ht.trace_eq
  | rejects => exact .inl rfl

/-- Where reset is asserted a step does nothing else. -/
theorem Move.eq_takeReset {s t : State} (h : Move s t) (hr : s.resetAsserted = true) : t = takeReset s := by
  cases h with
  | resets => rfl
  | passes h | answers h | ticks h | elapses h | decides h | rejects h => simp [h] at hr

/-- A byte that a step adds to the trace is the one issued at the outstanding write. -/
theorem Move.written_eq_issued {s t : State} (h : Move s t) {x : Byte}
    (hx : t.trace = s.trace ++ [.W x] ∨ t.trace = s.trace ++ [.F x]) :
    ∃ v, s.outstanding = some (.write v) ∧ x = s.issued v := by
  cases hr : s.resetAsserted with
  | true => simp [h.eq_takeReset hr] at hx
  | false =>
    rcases h.trace_cases hr with htrace | ⟨v, e, hv, he, htrace⟩ | ⟨n, -, htrace⟩
    · simp [htrace] at hx
    · refine ⟨v, hv, ?_⟩
      rcases he with rfl | rfl <;> simpa [htrace, eq_comm] using hx
    · simp [htrace] at hx

/-- The backlight does not change while an operation is in progress (R161). -/
theorem Move.bl_eq_of_busy {s t : State} (h : Move s t) (hb : s.busy = true) (hr : s.resetAsserted = false) :
    t.bl = s.bl := by
  cases h with
  | resets h => simp [h] at hr
  | passes => exact passInput_bl hr
  | answers | ticks | elapses => simp
  | decides _ hidle | rejects _ hidle => simp [hb] at hidle

/-- Every byte a step writes is a transaction byte with the backlight at the time of the write. -/
theorem step_writes_transactionByte {s t : State} (inv : StateInv s) (h : step s = .next t) {x : Byte}
    (hx : t.trace = s.trace ++ [.W x] ∨ t.trace = s.trace ++ [.F x]) :
    ∃ data en rs, x = transactionByte s.cfg data s.bl en rs := by
  obtain ⟨v, hv, rfl⟩ := (step_move h).written_eq_issued hx
  exact inv.issued_eq_transactionByte hv

/-! ## The backlight and read/write lines (R161, R164) -/

/-- A byte has the whole of a single-bit mask exactly when the line of the mask is high. -/
theorem and_mask_eq_iff {m : Byte} (hm : m ∈ singleBitMasks) (hne : m ≠ 0) (b : Byte) :
    b &&& m = m ↔ lineHigh m b = true := by
  rw [← lineBits_lineHigh hm]
  cases lineHigh m b
  · simpa [lineBits] using hne.symm
  · simp [lineBits]

theorem transactionByte_and_blMask {c : Config} (h : c.wf = true) (data : Nibble) (bl en rs : Bool) :
    transactionByte c data bl en rs &&& c.blMask = c.blMask ↔ bl = true := by
  obtain ⟨-, -, -, hmask, -⟩ := wf_masks h
  obtain ⟨-, -, -, -, -, -, -, -, -, hne⟩ := layout_disjoint h
  obtain ⟨-, hbl, -⟩ := fields_transactionByte h data bl en rs
  rw [and_mask_eq_iff hmask hne, hbl]

theorem transactionByte_and_rwMask {c : Config} (h : c.wf = true) (data : Nibble) (bl en rs : Bool) :
    transactionByte c data bl en rs &&& c.rwMask = 0 := by
  obtain ⟨-, -, -, -, hrw⟩ := fields_transactionByte h data bl en rs
  exact lineHigh_eq_false_iff.mp hrw

/-- Settles O45: a step writes transaction bytes with the backlight of now, and a busy block keeps its backlight. -/
theorem backlightBitInEveryWrite : Obligations.BacklightBitInEveryWrite := by
  intro s t inv h
  refine ⟨fun x hx => ?_, (step_move h).bl_eq_of_busy⟩
  obtain ⟨data, en, rs, rfl⟩ := step_writes_transactionByte inv h hx
  exact transactionByte_and_blMask inv.config data s.bl en rs

/-- Settles O46: a transaction byte has RW low, and `XACT`, `STROBE` and a step give transaction bytes alone. -/
theorem readWriteLineStaysLow : Obligations.ReadWriteLineStaysLow := by
  refine ⟨fun c nib rs bl hc => ⟨?_, fun x hx => ?_⟩, fun s t inv h x hx => ?_⟩
  · rw [xactValue_eq]
    exact transactionByte_and_rwMask hc nib false false rs
  · obtain ⟨data, en, rs', rfl⟩ := sendsTransactions_strobe hc nib rs x hx
    exact transactionByte_and_rwMask hc data bl en rs'
  · obtain ⟨data, en, rs, rfl⟩ := step_writes_transactionByte inv h hx
    exact transactionByte_and_rwMask inv.config data s.bl en rs

end Sys2Proof.Machine
end

section
/-! Proofs: what the shared operations change, each as one record update, and what a step does, in both directions: the
equation of a step at a given event, and the inversion of any step (`step_effect`). -/

namespace Sys2Proof.Machine

/-! ## The end of an event -/

theorem finish_eq (s : State) :
    finish s = respond .done { s with life := if s.running = some .init then .ready else s.life } := by
  unfold finish
  split <;> rfl

theorem running_of_seq {s : State} {q : SeqState} (h : s.seq = some q) : s.running = some q.op := by
  simp [State.running, h]

theorem outstanding_of_seq {s : State} {op : Instr} {p : Pending} {todo : List Pending} {t : Nat}
    (h : s.seq = some ⟨op, p :: todo, t⟩) : s.outstanding = some p := by
  simp [State.outstanding, h]

/-- Only a failed write is reported under another kind. -/
theorem reportedKind_invalidSlot (s : State) : reportedKind .invalidSlot s = .invalidSlot := if_neg (by simp)

/-- A write answered `failure`, field by field (60_exceptions.md R261, R262, R264, R266). -/
theorem answered_failure {s : State} {q : SeqState} (x : Byte) (h : s.seq = some q) :
    answered x .failure s = { s with
      life := if q.op = .init then .failed else s.life
      busy := false
      seq := none
      trace := s.trace ++ [.F x]
      fault := if s.fault = .none then (if q.op = .init then .init else .transport) else s.fault
      faultByte := if s.fault = .none then x else s.faultByte
      responses := s.responses ++ [.error (if q.op = .init then .initializationError else .transportError)] } := by
  have hkind : reportedKind .transportError (record (.F x) s) =
      if q.op = .init then .initializationError else .transportError := by
    simp [reportedKind, running_of_seq (s := record (.F x) s) h]
  simp only [answered, raise_eq, hkind]
  by_cases hop : q.op = .init <;> simp only [hop, ↓reduceIte] <;> rfl

/-! ## Inputs that the sequencer waits for, and others -/

theorem awaitAnswer_answer {s : State} {a : Answer} {rest : List Input} (x : Byte) (hi : s.inputs = .answer a :: rest) :
    awaitAnswer x s = answered x a { s with inputs := rest } := by
  rw [awaitAnswer, hi]

theorem awaitAnswer_passes {s : State} (x : Byte) (h : ∀ a rest, s.inputs ≠ .answer a :: rest) :
    awaitAnswer x s = passInput s := by
  unfold awaitAnswer
  split
  · exact absurd ‹_› (h _ _)
  · rfl

theorem awaitDelay_elapse {s : State} {m : Nat} {rest : List Input} (n : Nat) (hi : s.inputs = .elapse m :: rest) :
    awaitDelay n s = if n ≤ s.elapsed + m then advance (record (.D n) { s with inputs := rest })
      else tick m { s with inputs := rest } := by
  rw [awaitDelay, hi]

theorem awaitDelay_passes {s : State} (n : Nat) (h : ∀ m rest, s.inputs ≠ .elapse m :: rest) :
    awaitDelay n s = passInput s := by
  unfold awaitDelay
  split
  · exact absurd ‹_› (h _ _)
  · rfl

/-! ## The equation of a step -/

theorem resetAsserted_of_inputs {s : State} {x : Input} {rest : List Input} (hi : s.inputs = x :: rest)
    (hx : x ≠ .reset) : s.resetAsserted = false := by
  simp [State.resetAsserted, hi, hx]

theorem resetAsserted_of_no_inputs {s : State} (hi : s.inputs = []) : s.resetAsserted = false := by
  simp [State.resetAsserted, hi]

theorem step_reset {s : State} (hr : s.resetAsserted = true) : step s = .next (takeReset s) := by
  simp [step, hr]

theorem step_busy {s : State} (hr : s.resetAsserted = false) (hb : s.busy = true) : step s = performNext s := by
  simp [step, hr, hb]

theorem step_idle {s : State} (hr : s.resetAsserted = false) (hb : s.busy = false) : step s = decideNext s := by
  simp [step, hr, hb]

theorem step_write {s : State} {v : Byte} (hr : s.resetAsserted = false) (hb : s.busy = true)
    (hv : s.outstanding = some (.write v)) : step s = .next (awaitAnswer (s.issued v) s) := by
  rw [step_busy hr hb, performNext, hv]

theorem step_delay {s : State} {n : Nat} (hr : s.resetAsserted = false) (hb : s.busy = true)
    (hn : s.outstanding = some (.delay n)) : step s = .next (awaitDelay n s) := by
  rw [step_busy hr hb, performNext, hn]

/-- An idle block with nothing at its port waits. -/
theorem step_idle_empty {s : State} (hr : s.resetAsserted = false) (hb : s.busy = false) (hp : s.port = []) :
    step s = .next (passInput s) := by
  rw [step_idle hr hb, decideNext, hp]

/-- An idle block decides the oldest request at its port. -/
theorem step_idle_cons {s : State} {q : Request} {rest : List Request} (hr : s.resetAsserted = false)
    (hb : s.busy = false) (hp : s.port = q :: rest) : step s = decideRequest q { s with port := rest } := by
  rw [step_idle hr hb, decideNext, hp]

theorem step_answer {s : State} {op : Instr} {v : Byte} {todo : List Pending} {t : Nat} {a : Answer}
    {rest : List Input} (hb : s.busy = true) (hseq : s.seq = some ⟨op, .write v :: todo, t⟩)
    (hi : s.inputs = .answer a :: rest) : step s = .next (answered (s.issued v) a { s with inputs := rest }) := by
  rw [step_write (resetAsserted_of_inputs hi (by simp)) hb (outstanding_of_seq hseq), awaitAnswer_answer _ hi]

/-- Time on the outstanding delay: it is over, or the timer moves (20_memory.md R63). -/
theorem step_elapse {s : State} {op : Instr} {n m t : Nat} {todo : List Pending} {rest : List Input}
    (hb : s.busy = true) (hseq : s.seq = some ⟨op, .delay n :: todo, t⟩) (hi : s.inputs = .elapse m :: rest) :
    step s = .next (if n ≤ t + m then advance (record (.D n) { s with inputs := rest })
      else tick m { s with inputs := rest }) := by
  have ht : s.elapsed = t := by simp [State.elapsed, hseq]
  rw [step_delay (resetAsserted_of_inputs hi (by simp)) hb (outstanding_of_seq hseq),
    awaitDelay_elapse n hi, ht]

/-! ## What a step can do -/

/-- The effect of a step as an update of the state: `Move` with its operations carried out, and with the success of a
write and the end of a delay as one, the completion of the outstanding event `p`, whose event of the trace is `e`. -/
inductive Effect (s : State) : State → Prop where
  | resets (hr : s.resetAsserted = true) : Effect s (takeReset s)
  | waits (hr : s.resetAsserted = false) (hidle : s.busy = false → s.port = []) (waiting : List Request)
      (rest : List Input) (hw : waiting = [] ∨ ∃ q, s.inputs = .present q :: rest ∧ waiting = [q]) :
      Effect s { s with port := s.port ++ waiting, inputs := rest }
  | ticks (hr : s.resetAsserted = false) (hb : s.busy = true) (op : Instr) (n m t : Nat) (todo : List Pending)
      (rest : List Input) (hseq : s.seq = some ⟨op, .delay n :: todo, t⟩) (hlt : t + m < n) :
      Effect s { s with seq := some ⟨op, .delay n :: todo, t + m⟩, inputs := rest }
  | goesOn (hr : s.resetAsserted = false) (hb : s.busy = true) (op : Instr) (p p' : Pending) (todo : List Pending)
      (t : Nat) (e : Event) (rest : List Input) (hseq : s.seq = some ⟨op, p :: p' :: todo, t⟩)
      (he : performed s.cfg s.bl [p] = [e]) :
      Effect s { s with seq := some ⟨op, p' :: todo, 0⟩, trace := s.trace ++ [e], inputs := rest }
  | ends (hr : s.resetAsserted = false) (hb : s.busy = true) (op : Instr) (p : Pending) (t : Nat) (e : Event)
      (rest : List Input) (hseq : s.seq = some ⟨op, [p], t⟩) (he : performed s.cfg s.bl [p] = [e]) :
      Effect s { s with
        life := if op = .init then .ready else s.life
        busy := false
        seq := none
        trace := s.trace ++ [e]
        responses := s.responses ++ [.done]
        inputs := rest }
  | aborts (hr : s.resetAsserted = false) (hb : s.busy = true) (op : Instr) (v : Byte) (todo : List Pending) (t : Nat)
      (rest : List Input) (hseq : s.seq = some ⟨op, .write v :: todo, t⟩) :
      Effect s { s with
        life := if op = .init then .failed else s.life
        busy := false
        seq := none
        trace := s.trace ++ [.F (s.issued v)]
        fault := if s.fault = .none then (if op = .init then .init else .transport) else s.fault
        faultByte := if s.fault = .none then s.issued v else s.faultByte
        responses := s.responses ++ [.error (if op = .init then .initializationError else .transportError)]
        inputs := rest }
  | decides (hr : s.resetAsserted = false) (hb : s.busy = false) (q : Request) (rest : List Request)
      (hp : s.port = q :: rest) (i : Instr) (hq : decodeRequest q.word q.payload = .ok i) (t : State)
      (ht : Decided i { s with port := rest } t) : Effect s t
  | rejects (hr : s.resetAsserted = false) (hb : s.busy = false) (q : Request) (rest : List Request)
      (hp : s.port = q :: rest) : Effect s (refuse .illegalRequest { s with port := rest })

/-- The outstanding event is complete: the operation goes on or ends. -/
theorem effect_advance {s : State} (hr : s.resetAsserted = false) (hb : s.busy = true) {p : Pending} {e : Event}
    (rest : List Input) (hp : s.outstanding = some p) (he : performed s.cfg s.bl [p] = [e]) :
    Effect s (advance (record e { s with inputs := rest })) := by
  obtain ⟨op, todo, t, hseq⟩ := outstanding_some hp
  cases todo with
  | nil =>
    have hlast : (record e { s with inputs := rest }).seq = some ⟨op, [p], t⟩ := hseq
    rw [advance_last hlast]
    exact .ends hr hb op p t e rest hseq he
  | cons p' todo =>
    have hmore : (record e { s with inputs := rest }).seq = some ⟨op, p :: p' :: todo, t⟩ := hseq
    rw [advance_more hmore]
    exact .goesOn hr hb op p p' todo t e rest hseq he

theorem effect_passInput {s : State} (hr : s.resetAsserted = false) (hidle : s.busy = false → s.port = []) :
    Effect s (passInput s) := by
  rcases passInput_cases hr with ⟨-, h⟩ | ⟨q, rest, hi, h⟩ | ⟨x, rest, -, h⟩
  · simpa [h] using Effect.waits hr hidle [] s.inputs (.inl rfl)
  · rw [h]
    exact .waits hr hidle [q] rest (.inr ⟨q, hi, rfl⟩)
  · simpa [h] using Effect.waits hr hidle [] rest (.inl rfl)

theorem step_effect {s t : State} (h : step s = .next t) : Effect s t := by
  cases step_move h with
  | resets hr => exact .resets hr
  | passes hr hidle => exact effect_passInput hr hidle
  | answers hr hb v hv a rest hi =>
    cases a with
    | success => exact effect_advance hr hb rest hv rfl
    | failure =>
      obtain ⟨op, todo, t, hseq⟩ := outstanding_some hv
      have hq : ({ s with inputs := rest } : State).seq = some ⟨op, .write v :: todo, t⟩ := hseq
      rw [answered_failure _ hq]
      exact .aborts hr hb op v todo t rest hseq
  | ticks hr hb n m hn rest hi hlt =>
    obtain ⟨op, todo, t, hseq⟩ := outstanding_some hn
    simp only [State.elapsed, hseq, Option.map_some, Option.getD_some] at hlt
    simpa [tick, hseq] using Effect.ticks hr hb op n m t todo rest hseq hlt
  | elapses hr hb n m hn rest hi hge => exact effect_advance hr hb rest hn rfl
  | decides hr hb q rest hp i hq t ht => exact .decides hr hb q rest hp i hq t ht
  | rejects hr hb q rest hp e hq => exact .rejects hr hb q rest hp

end Sys2Proof.Machine
end

section
/-! Proofs of the invariant statements: the reset state meets `StateInv` and `TraceInv`, every step keeps them, and a
step from a state that meets `StateInv` gives a next state. -/

namespace Sys2Proof.Machine

/-! ## What the invariant says of an idle and of a busy block -/

namespace StateInv
variable {s : State}

theorem seq_eq_none (inv : StateInv s) (hb : s.busy = false) : s.seq = none := by
  have h := inv.busyIffSeq
  rwa [hb, eq_comm, Option.isSome_eq_false_iff, Option.isNone_iff_eq_none] at h

theorem exists_seq (inv : StateInv s) (hb : s.busy = true) : ∃ op p todo t, s.seq = some ⟨op, p :: todo, t⟩ := by
  have h := inv.busyIffSeq
  rw [hb] at h
  obtain ⟨⟨op, todo, t⟩, hseq⟩ := Option.isSome_iff_exists.mp h.symm
  obtain ⟨hne, -, -⟩ := inv.position _ hseq
  obtain ⟨p, todo, rfl⟩ := List.exists_cons_of_ne_nil hne
  exact ⟨op, p, todo, t, hseq⟩

theorem busy_of_seq {q : SeqState} (inv : StateInv s) (hseq : s.seq = some q) : s.busy = true := by
  simp [inv.busyIffSeq, hseq]

/-- The lifecycle during an operation (45_display_ops.md R220, R221). -/
theorem life_of_seq {q : SeqState} (inv : StateInv s) (hseq : s.seq = some q) :
    s.life = if q.op = .init then .initializing else .ready := by
  have hrun : s.running = some q.op := running_of_seq hseq
  split
  · next hop => exact inv.initializing.mpr (hop ▸ hrun)
  · next hop => exact inv.ready _ hrun hop

theorem fault_ne_init_of_seq {q : SeqState} (inv : StateInv s) (hseq : s.seq = some q) : s.fault ≠ .init := by
  rw [Ne, ← inv.failed, inv.life_of_seq hseq]
  split <;> decide

theorem not_initializing_of_idle (inv : StateInv s) (hb : s.busy = false) : s.life ≠ .initializing := by
  rw [Ne, inv.initializing, State.running, inv.seq_eq_none hb]
  decide

theorem failed_is_idle (inv : StateInv s) (hl : s.life = .failed) : s.busy = false := by
  rw [inv.busyIffSeq, Option.isSome_eq_false_iff, Option.isNone_iff_eq_none, Option.eq_none_iff_forall_not_mem]
  intro q hseq
  have h := inv.life_of_seq hseq
  split at h <;> simp [hl] at h

/-- The invariant does not speak of the backlight, the observation and what stands outside the block. -/
theorem outside (inv : StateInv s) (bl : Bool) (trace : List Event) (responses : List Response) (port : List Request)
    (inputs : List Input) :
    StateInv { s with bl := bl, trace := trace, responses := responses, port := port, inputs := inputs } :=
  ⟨inv.config, inv.busyIffSeq, inv.position, inv.timer, inv.initializing, inv.ready, inv.failed, inv.nothingYet,
    inv.noByte, inv.slotFault⟩

/-- An idle block meets the invariant when its lifecycle and its recorded fault agree. -/
theorem of_idle (config : s.cfg.wf = true) (hb : s.busy = false) (hseq : s.seq = none) (hl : s.life ≠ .initializing)
    (failed : s.life = .failed ↔ s.fault = .init) (nothingYet : s.life = .uninit → s.fault = .none)
    (noByte : s.fault = .none → s.faultByte = 0x00) (slotFault : s.fault = .invalidSlot → s.cfg.strictSlot = true) :
    StateInv s where
  config := config
  busyIffSeq := by simp [hb, hseq]
  position := by simp [hseq]
  timer := by simp [hseq]
  initializing := by simp [hl, State.running, hseq]
  ready := by simp [State.running, hseq]
  failed := failed
  nothingYet := fun h => nothingYet (h.resolve_right hl)
  noByte := noByte
  slotFault := slotFault

/-- A fault in `READY` ends the operation; it is recorded when it is the first (60_exceptions.md R264). -/
theorem faulted_ready (inv : StateInv s) (hl : s.life = .ready) {k : FaultCode} (x : Byte)
    (hk : k ≠ .none ∧ k ≠ .init) (hslot : k = .invalidSlot → s.cfg.strictSlot = true) :
    StateInv { s with
      busy := false
      seq := none
      fault := if s.fault = .none then k else s.fault
      faultByte := if s.fault = .none then x else s.faultByte } := by
  have hinit : s.fault ≠ .init := by simp [← inv.failed, hl]
  by_cases hnone : s.fault = .none
  · simp only [hnone, ↓reduceIte]
    exact .of_idle inv.config rfl rfl (by simp [hl]) (by simp [hl, hk]) (by simp [hl]) (by simp [hk]) hslot
  · simp only [hnone, ↓reduceIte]
    exact .of_idle inv.config rfl rfl (by simp [hl]) (by simp [hl, hinit]) (by simp [hl]) inv.noByte inv.slotFault

/-- An operation in progress may stand at any later position, its timer short of the outstanding delay. -/
theorem at_position {op : Instr} {todo todo' : List Pending} {t t' : Nat} (inv : StateInv s)
    (hseq : s.seq = some ⟨op, todo, t⟩) (hne : todo' ≠ []) (hsuffix : todo' <:+ todo) (ht : timerOk ⟨op, todo', t'⟩) :
    StateInv { s with seq := some ⟨op, todo', t'⟩ } := by
  obtain ⟨-, hevents, hwf⟩ := inv.position _ hseq
  have hrun : s.running = some op := running_of_seq hseq
  refine ⟨inv.config, inv.busy_of_seq hseq, ?_, ?_, ?_, ?_, inv.failed, inv.nothingYet, inv.noByte, inv.slotFault⟩
  · rintro q ⟨⟩
    exact ⟨hne, hsuffix.trans hevents, hwf⟩
  · rintro q ⟨⟩
    exact ht
  · have hinit := inv.initializing
    rwa [hrun] at hinit
  · have hready := inv.ready
    rwa [hrun] at hready

/-- An accepted operation stands at the start of its own events. -/
theorem accepted {op : Instr} {life : Life} (inv : StateInv s) (hne : eventsOf s.cfg op ≠ [])
    (hwf : op.wf = true) (hl : s.life = .uninit ∧ op = .init ∧ life = .initializing ∨
      s.life = .ready ∧ op ≠ .init ∧ life = .ready) :
    StateInv (accept op (eventsOf s.cfg op) { s with life := life }) where
  config := inv.config
  busyIffSeq := rfl
  position := by
    rintro q ⟨⟩
    exact ⟨hne, List.suffix_rfl, hwf⟩
  timer := by
    rintro q ⟨⟩
    exact .inl rfl
  initializing := by
    rcases hl with ⟨-, rfl, rfl⟩ | ⟨-, hop, rfl⟩
    · simp [State.running]
    · simp [State.running, hop]
  ready := by
    rintro i ⟨⟩ hi
    rcases hl with ⟨-, rfl, -⟩ | ⟨-, -, rfl⟩
    · exact absurd rfl hi
    · rfl
  failed := by
    rcases hl with ⟨hl, -, rfl⟩ | ⟨hl, -, rfl⟩ <;> simp [← inv.failed, hl]
  nothingYet := by
    rcases hl with ⟨hl, -, rfl⟩ | ⟨-, -, rfl⟩
    · exact fun _ => inv.nothingYet (.inl hl)
    · simp
  noByte := inv.noByte
  slotFault := inv.slotFault

end StateInv

theorem initEvents_ne_nil (c : Config) : initEvents c ≠ [] := by simp [initEvents]

/-! ## The invariants at reset -/

theorem stateInv_resetOf {c : Config} (h : c.wf = true) : StateInv (State.resetOf c) :=
  .of_idle h rfl rfl (by simp) (by simp) (fun _ => rfl) (fun _ => rfl) (by simp)

theorem traceInv_resetOf (c : Config) : TraceInv (State.resetOf c) :=
  ⟨by simp [writesOf], fun _ => trivial⟩

/-- Settles O41: the reset state is idle in `UNINIT`, without a fault and with an empty trace. -/
theorem invariantsAtReset : Obligations.InvariantsAtReset :=
  fun c h => ⟨stateInv_resetOf h, traceInv_resetOf c⟩

/-! ## Every step keeps the invariant of the state -/

/-- Deciding a well-formed instruction keeps the invariant. -/
theorem Decided.stateInv {i : Instr} {s t : State} (h : Decided i s t) (inv : StateInv s) (hi : i.wf = true) :
    StateInv t := by
  cases h with
  | waits => exact inv
  | refuses r => exact inv.outside s.bl s.trace _ s.port s.inputs
  | starts _ _ hl =>
    exact inv.accepted (op := .init) (initEvents_ne_nil s.cfg) rfl (.inl ⟨hl, rfl, rfl⟩)
  | accepts op hop hwf hne _ hr =>
    obtain ⟨-, hl⟩ := hr
    simpa only [← hl] using inv.accepted hne (hwf hi) (.inr ⟨hl, hop, rfl⟩)
  | lights on _ hr =>
    obtain ⟨hb, hl⟩ := hr
    exact .of_idle inv.config rfl rfl (inv.not_initializing_of_idle hb) inv.failed (fun h => inv.nothingYet (.inl h))
      inv.noByte inv.slotFault
  | strict slot g _ hs hslot hr =>
    obtain ⟨-, hl⟩ := hr
    rw [raise_eq, reportedKind_invalidSlot]
    exact (inv.faulted_ready hl slot (by decide) fun _ => hs).outside s.bl s.trace _ s.port s.inputs

/-- Settles O42, one case per effect of a step. -/
theorem stepKeepsInvariant : Obligations.StepKeepsInvariant := by
  intro s t inv h
  cases step_effect h with
  | resets => exact (stateInv_resetOf inv.config).outside s.cfg.blReset [] [] s.port s.inputs.tail
  | waits => exact inv.outside s.bl s.trace s.responses _ _
  | ticks _ _ op n m t todo rest hseq hlt =>
    exact (inv.at_position hseq (List.cons_ne_nil _ _) List.suffix_rfl (.inr ⟨n, todo, rfl, hlt⟩)).outside s.bl s.trace
      s.responses s.port rest
  | goesOn _ _ op p p' todo t e rest hseq =>
    exact (inv.at_position hseq (List.cons_ne_nil _ _) (List.suffix_cons p _) (.inl rfl)).outside s.bl _ s.responses
      s.port rest
  | ends _ _ op p t e rest hseq =>
    have hf := inv.fault_ne_init_of_seq hseq
    have hl : (if op = .init then .ready else s.life) = Life.ready := by
      rw [inv.life_of_seq hseq]
      split <;> rfl
    refine .of_idle inv.config rfl rfl ?_ ?_ ?_ inv.noByte inv.slotFault <;> simp [hl, hf]
  | aborts _ _ op v todo t rest hseq =>
    have hl := inv.life_of_seq hseq
    by_cases hop : op = .init
    · subst hop
      have hnone : s.fault = .none := inv.nothingYet (.inr hl)
      refine .of_idle inv.config rfl rfl ?_ ?_ ?_ ?_ ?_ <;> simp [hnone]
    · rw [if_neg hop] at hl
      simp only [hop, ↓reduceIte]
      exact (inv.faulted_ready hl (s.issued v) (by decide) (by simp)).outside s.bl _ _ s.port rest
  | decides _ _ q rest _ i hq t ht =>
    exact ht.stateInv (inv.outside s.bl s.trace s.responses rest s.inputs) (decodeRequest_spec hq).1
  | rejects _ _ q rest => exact inv.outside s.bl s.trace _ rest s.inputs

/-- Settles O43: a busy block has an event outstanding, and an idle one decides a request, which is not XACT. -/
theorem stepNeverStops : Obligations.StepNeverStops := by
  intro s inv
  cases hr : s.resetAsserted with
  | true => exact ⟨_, step_reset hr⟩
  | false =>
    cases hb : s.busy with
    | true =>
      obtain ⟨op, p, todo, t, hseq⟩ := inv.exists_seq hb
      cases p with
      | write v => exact ⟨_, step_write hr hb (outstanding_of_seq hseq)⟩
      | delay n => exact ⟨_, step_delay hr hb (outstanding_of_seq hseq)⟩
    | false =>
      cases hp : s.port with
      | nil => exact ⟨_, step_idle_empty hr hb hp⟩
      | cons q rest =>
        rw [step_idle_cons hr hb hp, decideRequest]
        split
        · next i hq =>
          exact exec_next _ (by simp [(decodeRequest_spec hq).2])
        · simp [refuseIllegal, hb]

/-! ## Enable pulses (R162) -/

/-- The writes of these events, under the backlight `bl`, are enable pulses. -/
def SendsPulses (c : Config) (bl : Bool) (events : List Pending) : Prop :=
  pulses c (writesOf (performed c bl events))

theorem pulses_append {c : Config} {xs ys : List Byte} (hx : pulses c xs) (hy : pulses c ys) :
    pulses c (xs ++ ys) := by
  induction xs using pulses.induct with
  | case1 => exact hy
  | case2 => exact absurd hx id
  | case3 a b rest ih =>
    obtain ⟨hhigh, hlow, hrest⟩ := hx
    exact ⟨hhigh, hlow, ih hrest⟩

section
variable {c : Config} {bl : Bool}

theorem SendsPulses.append {xs ys : List Pending} (hx : SendsPulses c bl xs) (hy : SendsPulses c bl ys) :
    SendsPulses c bl (xs ++ ys) := by
  rw [SendsPulses, performed_append, writesOf_append]
  exact pulses_append hx hy

theorem SendsPulses.delay {xs : List Pending} (hx : SendsPulses c bl xs) (n : Nat) :
    SendsPulses c bl (xs ++ [.delay n]) :=
  hx.append trivial

/-- Taking out bits that were put into a word without them gives the word. -/
theorem or_and_not_self_of_and_eq_zero {w : Nat} {x m : BitVec w} (h : x &&& m = 0#w) : (x ||| m) &&& ~~~m = x := by
  ext i hi
  have hbit : (x[i] && m[i]) = false := by rw [← BitVec.getElem_and, h, BitVec.getElem_zero]
  rw [BitVec.getElem_and, BitVec.getElem_or, BitVec.getElem_not]
  revert hbit
  cases x[i] <;> cases m[i] <;> decide

/-- Lowering the enable line of an enable-high byte gives the enable-low byte with the same fields. -/
theorem transactionByte_and_not_enable (h : c.wf = true) (n : Nibble) (rs : Bool) :
    transactionByte c n bl true rs &&& ~~~c.enMask = transactionByte c n bl false rs := by
  obtain ⟨-, -, hlow, -⟩ := fields_transactionByte h n bl false rs
  have hhigh : transactionByte c n bl true rs = transactionByte c n bl false rs ||| c.enMask := by
    rw [← xactValue_enableHigh, ← xactValue_enableLow]
    ac_rfl
  rw [hhigh, or_and_not_self_of_and_eq_zero (lineHigh_eq_false_iff.mp hlow)]

theorem sendsPulses_strobe (h : c.wf = true) (n : Nibble) (rs : Bool) :
    SendsPulses c bl (strobe c (xactValue c n rs)) := by
  obtain ⟨-, -, hen, -⟩ := fields_transactionByte h n bl true rs
  rw [SendsPulses, writesOf_strobe h]
  exact ⟨hen, (transactionByte_and_not_enable h n rs).symm, trivial⟩

theorem sendsPulses_sendByte (h : c.wf = true) (b : Byte) (rs : Bool) : SendsPulses c bl (sendByte c b rs) :=
  (sendsPulses_strobe h _ rs).append (sendsPulses_strobe h _ rs)

theorem sendsPulses_sendData (h : c.wf = true) (bytes : List Byte) : SendsPulses c bl (sendData c bytes) := by
  induction bytes with
  | nil => exact trivial
  | cons b rest ih => exact (sendsPulses_sendByte h b true).append ih

theorem sendsPulses_initEvents (h : c.wf = true) : SendsPulses c bl (initEvents c) := by
  have nibble := fun n t => (sendsPulses_strobe (bl := bl) h n false).delay t
  have byte := fun b t => (sendsPulses_sendByte (bl := bl) h b false).delay t
  exact (nibble 0x3 c.tInit.t0).append (nibble 0x3 c.tInit.t1) |>.append (nibble 0x3 c.tInit.t2)
    |>.append (nibble 0x2 c.tInit.t3) |>.append (byte c.cmdFunctionInit c.tInit.t4)
    |>.append (byte c.cmdDisplayInit c.tInit.t5) |>.append (byte c.cmdClear c.tInit.t6)
    |>.append (byte c.cmdEntryInit c.tInit.t7)

/-- The events of an operation are strobes and delays, so their writes are enable pulses. -/
theorem sendsPulses_eventsOf (h : c.wf = true) (op : Instr) : SendsPulses c bl (eventsOf c op) := by
  have command := fun b => sendsPulses_sendByte (bl := bl) h b false
  have data := fun bytes => sendsPulses_sendData (bl := bl) h bytes
  cases op with
  | init => exact sendsPulses_initEvents h
  | wrdata b => exact sendsPulses_sendByte h b true
  | wrcmd | scrolll | scrollr | setcur => exact command _
  | clear => exact (command _).append (command _)
  | wrstr | ldglyph | ldglyphs => exact (command _).append (data _)
  | _ => exact trivial

end

/-! ## Every step keeps the invariant of the trace -/

theorem bytesToCome_of_idle {s : State} (hseq : s.seq = none) : s.bytesToCome = [] := by
  simp [State.bytesToCome, hseq]

theorem bytesToCome_of_seq {s : State} {q : SeqState} (hseq : s.seq = some q) :
    s.bytesToCome = writesOf (performed s.cfg s.bl q.todo) := by
  simp [State.bytesToCome, hseq]

/-- The byte of a completed event moves from those to come to those done. -/
theorem writesOf_completed {c : Config} {bl : Bool} {p : Pending} {e : Event} (he : performed c bl [p] = [e])
    (trace : List Event) (todo : List Pending) :
    writesOf (trace ++ [e]) ++ writesOf (performed c bl todo) =
      writesOf trace ++ writesOf (performed c bl (p :: todo)) := by
  rw [← he, writesOf_append, List.append_assoc, ← writesOf_append, ← performed_append]
  rfl

/-- Every byte in the trace after a step has the read/write line low. -/
theorem readWriteLow_of_step {s t : State} (inv : StateInv s) (htrace : TraceInv s) (h : step s = .next t) :
    ∀ b ∈ writesOf t.trace, lineHigh s.cfg.rwMask b = false := by
  have hmove := step_move h
  cases hr : s.resetAsserted with
  | true => simp [hmove.eq_takeReset hr, writesOf]
  | false =>
    rcases hmove.trace_cases hr with heq | ⟨v, e, hv, he, heq⟩ | ⟨n, -, heq⟩
    · rw [heq]
      exact htrace.readWriteLow
    · obtain ⟨data, en, rs, hx⟩ := inv.issued_eq_transactionByte hv
      have hlow := (fields_transactionByte inv.config data s.bl en rs).2.2.2.2
      rw [heq, writesOf_append, List.forall_mem_append]
      refine ⟨htrace.readWriteLow, ?_⟩
      rcases he with rfl | rfl <;> simpa [writesOf, hx] using hlow
    · simpa [heq, writesOf] using htrace.readWriteLow

theorem Decided.cfg_eq {i : Instr} {s t : State} (h : Decided i s t) : t.cfg = s.cfg := by
  cases h <;> simp [raise_eq]

/-- Deciding an instruction leaves the writes done and adds the pulses of its events to those to come. -/
theorem Decided.pulsed {i : Instr} {s t : State} (h : Decided i s t) (hwf : s.cfg.wf = true) (hseq : s.seq = none)
    (hpulses : pulses s.cfg (writesOf s.trace)) : pulses t.cfg (writesOf t.trace ++ t.bytesToCome) := by
  cases h with
  | starts => exact pulses_append hpulses (sendsPulses_eventsOf hwf .init)
  | accepts op => exact pulses_append hpulses (sendsPulses_eventsOf hwf op)
  | waits | refuses => simpa [bytesToCome_of_idle, hseq] using hpulses
  | lights | strict => simpa [State.bytesToCome, raise_eq] using hpulses

/-- Settles O44: an event done moves its byte from the bytes to come to the bytes done, and an accepted operation brings
enable pulses. -/
theorem stepKeepsTraceInvariant : Obligations.StepKeepsTraceInvariant := by
  intro s t inv htrace h
  have hlow := readWriteLow_of_step inv htrace h
  have hpulsed := htrace.pulsed
  cases step_effect h with
  | resets => exact ⟨hlow, fun _ => trivial⟩
  | waits => exact ⟨hlow, hpulsed⟩
  | ticks _ _ op n m t todo rest hseq =>
    rw [bytesToCome_of_seq hseq] at hpulsed
    exact ⟨hlow, hpulsed⟩
  | goesOn _ _ op p p' todo t e rest hseq he =>
    refine ⟨hlow, fun hfree => ?_⟩
    rw [bytesToCome_of_seq hseq, ← writesOf_completed he] at hpulsed
    exact hpulsed fun b hb => hfree b (List.mem_append_left _ hb)
  | ends _ _ op p t e rest hseq he =>
    refine ⟨hlow, fun hfree => ?_⟩
    rw [bytesToCome_of_seq hseq, ← writesOf_completed he] at hpulsed
    exact hpulsed fun b hb => hfree b (List.mem_append_left _ hb)
  | aborts _ _ op v =>
    exact ⟨hlow, fun hfree => absurd (List.mem_append_right _ List.mem_cons_self) (hfree (s.issued v))⟩
  | decides _ hb q rest hp i hq t ht =>
    have hseq := inv.seq_eq_none hb
    rw [bytesToCome_of_idle hseq, List.append_nil] at hpulsed
    refine ⟨ht.cfg_eq ▸ hlow, fun hfree => ht.pulsed inv.config hseq (hpulsed ?_)⟩
    rwa [ht.trace_eq] at hfree
  | rejects => exact ⟨hlow, hpulsed⟩

end Sys2Proof.Machine
end

section
/-! Proofs of the encoding statements: the opcode map and the round trip, the byte formats, the opcode table, the words
of the spec and the bytes of the pseudo-operations. -/

namespace Sys2Proof.Machine

/-! ## The opcode map (30_encoding.md R100 to R103) -/

/-- An operation code below 0xB with a payload of its length decodes as the operation. -/
theorem decodeRequest_operation {w : RequestWord} {payload : List Byte} {i : Instr}
    (hres : decodeReserved (opField w) = none) (hlen : payload.length = payloadLength w)
    (hop : decodeOperation w payload = some i) : decodeRequest w payload = .ok i := by
  simp [decodeRequest, hres, hlen, hop]

theorem decodeRequest_reserved {op : BitVec 4} {i : Instr} (hres : decodeReserved op = some i) (a b len : Byte)
    (payload : List Byte) : decodeRequest (requestWord op a b len) payload = .ok i := by
  simp [decodeRequest, hres]

theorem toNat_ofNat_of_le {n : Nat} (h : n ≤ 255) : (BitVec.ofNat 8 n).toNat = n := by
  rw [BitVec.toNat_ofNat]
  omega

/-- An operation without a payload, as one condition on its operation code. -/
theorem decodeRequest_no_payload {op : BitVec 4} {a b len : Byte} {i : Instr} (hres : decodeReserved op = none)
    (hlen : op ∉ [0x8, 0x9, 0xA]) (hop : decodeOperation (requestWord op a b len) [] = some i) :
    decodeRequest (requestWord op a b len) [] = .ok i := by
  simp only [List.mem_cons, List.not_mem_nil, or_false, not_or] at hlen
  obtain ⟨h8, h9, hA⟩ := hlen
  refine decodeRequest_operation (by rwa [opField_requestWord]) ?_ hop
  rw [payloadLength_requestWord, if_neg h8, if_neg h9, if_neg hA, List.length_nil]

theorem decodeRequest_wrstr (a b : Byte) {text : List Byte} (h : text.length ≤ 255) :
    decodeRequest (requestWord 0x8 a b (BitVec.ofNat 8 text.length)) text = .ok (.wrstr a b text) :=
  decodeRequest_operation (by simp [decodeReserved])
    (by rw [payloadLength_requestWord, if_pos rfl, toNat_ofNat_of_le h]) (by simp [decodeOperation])

theorem decodeRequest_ldglyph (a b len : Byte) (g : Glyph) :
    decodeRequest (requestWord 0x9 a b len) g.rows = .ok (.ldglyph a g) := by
  have hrows : glyphsOf g.rows = some [g] := by simpa using glyphsOf_rows [g]
  exact decodeRequest_operation (by simp [decodeReserved]) (by simp [payloadLength_requestWord])
    (by simp [decodeOperation, hrows])

theorem decodeRequest_ldglyphs (a b : Byte) {gs : List Glyph} (h : gs.length ≤ 255) :
    decodeRequest (requestWord 0xA a b (BitVec.ofNat 8 gs.length)) (gs.flatMap Glyph.rows) = .ok (.ldglyphs gs) :=
  decodeRequest_operation (by simp [decodeReserved])
    (by rw [payloadLength_requestWord, rows_length]; simp [toNat_ofNat_of_le h]) (by simp [decodeOperation])

/-- Settles O3: by the length of the payload and the operation code, the other fields being free. -/
theorem opcodeMapIgnoresUnusedFields : Obligations.OpcodeMapIgnoresUnusedFields := by
  intro a b len text payload g gs htext hgs
  refine ⟨?_, ?_, ?_, ?_, ?_, ?_, ?_, ?_, decodeRequest_wrstr a b htext, decodeRequest_ldglyph a b len g,
    decodeRequest_ldglyphs a b hgs, ?_, ?_, ?_, ?_, ?_⟩
  iterate 8 exact decodeRequest_no_payload rfl (by decide) (by simp [decodeOperation])
  all_goals exact decodeRequest_reserved rfl a b len payload

/-! ## The round trip -/

theorem decodeCommand_returnHomeByte (x : Bool) : decodeCommand (returnHomeByte x) = .ok (.returnHome x) := by
  revert x; decide

theorem decodeCommand_entryModeSetByte (id shift : Bool) :
    decodeCommand (entryModeSetByte id shift) = .ok (.entryModeSet id shift) := by
  revert id shift; decide

theorem decodeCommand_displayControlByte (d c b : Bool) :
    decodeCommand (displayControlByte d c b) = .ok (.displayControl d c b) := by
  revert d c b; decide

theorem decodeCommand_cursorOrDisplayShiftByte (sc rl : Bool) (x : BitVec 2) :
    decodeCommand (cursorOrDisplayShiftByte sc rl x) = .ok (.cursorOrDisplayShift sc rl x) := by
  revert sc rl x; decide

theorem decodeCommand_functionSetByte (dl n f : Bool) (x : BitVec 2) :
    decodeCommand (functionSetByte dl n f x) = .ok (.functionSet dl n f x) := by
  revert dl n f x; decide

theorem decodeCommand_setCgramAddressByte (a : BitVec 6) :
    decodeCommand (setCgramAddressByte a) = .ok (.setCgramAddress a) := by
  revert a; decide

theorem decodeCommand_setDdramAddressByte (a : BitVec 7) :
    decodeCommand (setDdramAddressByte a) = .ok (.setDdramAddress a) := by
  revert a; decide

theorem decodeTransaction_transactionByte {c : Config} (hc : c.wf = true) (data : Nibble) (bl en rs : Bool) :
    decodeTransaction c (transactionByte c data bl en rs) = .ok (.xact data bl en rs) := by
  obtain ⟨hdata, hbl, hen, hrs, hrw⟩ := fields_transactionByte hc data bl en rs
  simp [decodeTransaction, hdata, hbl, hen, hrs, hrw]

/-- Settles O1: requests by the opcode map, command bytes by their bits, fixed command bytes because they differ, and
transaction bytes by their fields. -/
theorem decodeEncodeRoundTrip : Obligations.DecodeEncodeRoundTrip := by
  intro c i hc hdistinct hi
  cases i with
  | init | wrcmd | wrdata | clear | scrolll | scrollr | setcur =>
    simp only [encode, decode]
    exact decodeRequest_no_payload rfl (by decide) (by simp [decodeOperation])
  | backlight on =>
    simp only [encode, decode]
    exact decodeRequest_no_payload rfl (by decide) (by cases on <;> simp [decodeOperation])
  | wrstr line col text => exact decodeRequest_wrstr line col (by simpa [Instr.wf] using hi)
  | ldglyph slot g => exact decodeRequest_ldglyph slot 0 0 g
  | ldglyphs gs => exact decodeRequest_ldglyphs 0 0 (by simpa [Instr.wf] using hi)
  | reservedB | reservedC | reservedD | reservedE | reservedF =>
    simp only [encode, decode]
    exact decodeRequest_reserved rfl 0 0 0 []
  | clearDisplay => rfl
  | returnHome => exact decodeCommand_returnHomeByte _
  | entryModeSet => exact decodeCommand_entryModeSetByte _ _
  | displayControl => exact decodeCommand_displayControlByte _ _ _
  | cursorOrDisplayShift => exact decodeCommand_cursorOrDisplayShiftByte _ _ _
  | functionSet => exact decodeCommand_functionSetByte _ _ _ _
  | setCgramAddress => exact decodeCommand_setCgramAddressByte _
  | setDdramAddress => exact decodeCommand_setDdramAddressByte _
  | cmdFunctionInit | cmdDisplayInit | cmdClear | cmdEntryInit | cmdHome | cmdShiftLeft | cmdShiftRight =>
    simp only [Config.fixedDistinct, decide_eq_true_eq, List.nodup_cons, List.mem_cons] at hdistinct
    simp only [encode, decode, decodeFixed]
    grind
  | xact data bl en rs => exact decodeTransaction_transactionByte hc data bl en rs

/-! ## The byte formats, from the byte (R81, R84, R85, R104) -/

/-- The bits of a command byte put back together, whichever bit is its highest. -/
theorem encode_of_decodeCommand (c : Config) {b : Byte} {i : Instr} (h : decodeCommand b = .ok i) :
    encode c i = .cmd b := by
  unfold decodeCommand at h
  split_ifs at h <;> cases h <;> simp only [encode, Code.cmd.injEq] <;> revert b <;> decide

theorem decodeCommand_ne_ok_iff (b : Byte) : (∀ i, decodeCommand b ≠ .ok i) ↔ b = 0x00 := by
  constructor
  · intro h
    unfold decodeCommand at h
    split_ifs at h
    case neg =>
      apply BitVec.eq_of_getLsbD_eq
      intro j hj
      interval_cases j <;> simp_all
    all_goals exact absurd rfl (h _)
  · rintro rfl i h
    cases h

theorem encode_of_decodeFixed {c : Config} {b : Byte} {i : Instr} (h : decodeFixed c b = .ok i) :
    encode c i = .cmdFixed b := by
  unfold decodeFixed at h
  split_ifs at h <;> cases h <;> simp only [encode, *]

theorem decodeFixed_ne_ok_iff (c : Config) (b : Byte) : (∀ i, decodeFixed c b ≠ .ok i) ↔
    b ∉ [c.cmdFunctionInit, c.cmdDisplayInit, c.cmdClear, c.cmdEntryInit, c.cmdHome, c.cmdShiftLeft,
      c.cmdShiftRight] := by
  unfold decodeFixed
  split_ifs <;> simp_all

theorem encode_of_decodeTransaction {c : Config} (hc : c.wf = true) {b : Byte} {i : Instr}
    (h : decodeTransaction c b = .ok i) : encode c i = .xact b := by
  unfold decodeTransaction at h
  split_ifs at h with hrw
  cases h
  exact congrArg Code.xact (transactionByte_fields hc (by simpa using hrw))

theorem decodeTransaction_ne_ok_iff (c : Config) (b : Byte) :
    (∀ i, decodeTransaction c b ≠ .ok i) ↔ b &&& c.rwMask ≠ 0 := by
  rw [Ne, ← lineHigh_eq_false_iff, Bool.not_eq_false]
  unfold decodeTransaction
  split_ifs with hrw <;> simp [hrw]

/-- Settles O2: each format by its own lemma. -/
theorem byteFormatsEncodeDecode : Obligations.ByteFormatsEncodeDecode :=
  fun c b hc => ⟨fun _ => encode_of_decodeCommand c, fun _ => encode_of_decodeFixed,
    fun _ => encode_of_decodeTransaction hc, decodeCommand_ne_ok_iff b, decodeFixed_ne_ok_iff c b,
    decodeTransaction_ne_ok_iff c b⟩

/-! ## The opcode table -/

/-- The rows of spec/opcode_table.json, in its order. -/
def opcodeRows : List Row :=
  [tableRow .init, tableRow (.wrcmd 0), tableRow (.wrdata 0), tableRow .clear, tableRow (.backlight false),
   tableRow .scrolll, tableRow .scrollr, tableRow (.setcur 0 0), tableRow (.wrstr 0 0 []),
   tableRow (.ldglyph 0 ⟨0, 0, 0, 0, 0, 0, 0, 0⟩), tableRow (.ldglyphs []), tableRow .reservedB, tableRow .reservedC,
   tableRow .reservedD, tableRow .reservedE, tableRow .reservedF, tableRow .clearDisplay, tableRow (.returnHome false),
   tableRow (.entryModeSet false false), tableRow (.displayControl false false false),
   tableRow (.cursorOrDisplayShift false false 0), tableRow (.functionSet false false false 0),
   tableRow (.setCgramAddress 0), tableRow (.setDdramAddress 0), tableRow .cmdFunctionInit, tableRow .cmdDisplayInit,
   tableRow .cmdClear, tableRow .cmdEntryInit, tableRow .cmdHome, tableRow .cmdShiftLeft, tableRow .cmdShiftRight,
   tableRow (.xact 0 false false false)]

theorem tableRow_mem_opcodeRows (i : Instr) : tableRow i ∈ opcodeRows := by
  cases i <;> simp [opcodeRows, tableRow]

/-- Two rows that accept one word agree on the bits both fix. -/
theorem accepts_agree {r r' : Row} {w : RequestWord} (h : r.accepts w = true) (h' : r'.accepts w = true) :
    r.value &&& r'.mask = r'.value &&& r.mask := by
  rw [Row.accepts, beq_iff_eq] at h h'
  rw [← h, ← h']
  ac_rfl

/-- Two rows of one format differ on a bit that both fix. -/
theorem opcodeRows_disjoint : ∀ r ∈ opcodeRows, ∀ r' ∈ opcodeRows, r.format = r'.format →
    r.value &&& r'.mask = r'.value &&& r.mask → r = r' := by
  decide +kernel

theorem tableRow_statement (i : Instr) : Laws.TableRow.Statement i := by
  cases i with
  | init => exact Laws.TableRow.init
  | wrcmd byte => exact Laws.TableRow.wrcmd byte
  | wrdata byte => exact Laws.TableRow.wrdata byte
  | clear => exact Laws.TableRow.clear
  | backlight on => exact Laws.TableRow.backlight on
  | scrolll => exact Laws.TableRow.scrolll
  | scrollr => exact Laws.TableRow.scrollr
  | setcur line col => exact Laws.TableRow.setcur line col
  | wrstr line col text => exact Laws.TableRow.wrstr line col text
  | ldglyph slot g => exact Laws.TableRow.ldglyph slot g
  | ldglyphs gs => exact Laws.TableRow.ldglyphs gs
  | reservedB => exact Laws.TableRow.reservedB
  | reservedC => exact Laws.TableRow.reservedC
  | reservedD => exact Laws.TableRow.reservedD
  | reservedE => exact Laws.TableRow.reservedE
  | reservedF => exact Laws.TableRow.reservedF
  | clearDisplay => exact Laws.TableRow.clearDisplay
  | returnHome x => exact Laws.TableRow.returnHome x
  | entryModeSet id shift => exact Laws.TableRow.entryModeSet id shift
  | displayControl d cu b => exact Laws.TableRow.displayControl d cu b
  | cursorOrDisplayShift sc rl x => exact Laws.TableRow.cursorOrDisplayShift sc rl x
  | functionSet dl n f x => exact Laws.TableRow.functionSet dl n f x
  | setCgramAddress a => exact Laws.TableRow.setCgramAddress a
  | setDdramAddress a => exact Laws.TableRow.setDdramAddress a
  | cmdFunctionInit => exact Laws.TableRow.cmdFunctionInit
  | cmdDisplayInit => exact Laws.TableRow.cmdDisplayInit
  | cmdClear => exact Laws.TableRow.cmdClear
  | cmdEntryInit => exact Laws.TableRow.cmdEntryInit
  | cmdHome => exact Laws.TableRow.cmdHome
  | cmdShiftLeft => exact Laws.TableRow.cmdShiftLeft
  | cmdShiftRight => exact Laws.TableRow.cmdShiftRight
  | xact data bl en rs => exact Laws.TableRow.xact data bl en rs

/-- The format of a code is the same in every configuration. -/
theorem encode_format (c : Config) (i : Instr) : (encode c i).format = (tableRow i).format := by
  cases i <;> rfl

theorem accepts_of_encode {i : Instr} {code : Code} (h : encode Config.default i = code) :
    (tableRow i).accepts code.word = true :=
  h ▸ (tableRow_statement i).2

/-- A request word is made of its four fields. -/
theorem requestWord_fields (w : RequestWord) : requestWord (opField w) (aField w) (bField w) (lenField w) = w := by
  apply BitVec.eq_of_toNat_eq
  simp only [requestWord, opField, aField, bField, lenField, BitVec.extractLsb'_toNat, BitVec.toNat_append,
    ← Nat.shiftLeft_add_eq_or_of_lt, Nat.mod_lt, Nat.two_pow_pos]
  simp only [Nat.shiftLeft_eq, Nat.shiftRight_eq_div_pow]
  omega

theorem accepts_of_opField {w : RequestWord} {op : BitVec 4} (h : opField w = op) (name : String) :
    Row.accepts ⟨name, .req, 0xF000000, op ++ 0#24⟩ w = true := by
  rw [← requestWord_fields w, h]
  exact Laws.accepts_requestWord op _ _ _ name

theorem accepts_of_decodeRequest {w : RequestWord} {payload : List Byte} {i : Instr}
    (h : decodeRequest w payload = .ok i) : (tableRow i).accepts w = true := by
  unfold decodeRequest at h
  split at h
  · next j hj =>
    cases h
    unfold decodeReserved at hj
    split at hj <;> cases hj <;> exact accepts_of_opField ‹_› _
  · split_ifs at h
    split at h <;> cases h
    next hj =>
    unfold decodeOperation at hj
    split at hj
    case h_10 =>
      split at hj <;> cases hj
      exact accepts_of_opField ‹_› _
    case h_11 =>
      obtain ⟨gs, -, rfl⟩ := Option.map_eq_some_iff.mp hj
      exact accepts_of_opField ‹_› _
    case h_12 => cases hj
    all_goals
      cases hj
      exact accepts_of_opField ‹_› _

/-- Settles O4: rows that accept one word agree on their fixed bits; a byte that decodes is the encoding of its
instruction, which has the bits of its row; and a request is told by its operation code. -/
theorem decoderFollowsOpcodeTable : Obligations.DecoderFollowsOpcodeTable := by
  refine ⟨fun i j w hformat hi hj => ?_, fun c code i h => ?_, fun code i h => ?_⟩
  · exact opcodeRows_disjoint _ (tableRow_mem_opcodeRows i) _ (tableRow_mem_opcodeRows j) hformat (accepts_agree hi hj)
  · rw [← encode_format c]
    cases code with
    | req w payload => exact (encode_format c i).trans (decodeRequest_spec h).2
    | cmd b => rw [encode_of_decodeCommand c h]
    | cmdFixed b => rw [encode_of_decodeFixed h]
    | xact b =>
      simp only [decode, decodeTransaction] at h
      split_ifs at h
      cases h
      rfl
  · cases code with
    | req w payload => exact accepts_of_decodeRequest h
    | cmd b => exact accepts_of_encode (encode_of_decodeCommand _ h)
    | cmdFixed b => exact accepts_of_encode (encode_of_decodeFixed h)
    | xact b => exact accepts_of_encode (encode_of_decodeTransaction (by decide) h)

/-! ## Words of the spec, pseudo-operations, cursor commands -/

/-- Settles O5: the decoder run on each of the words. -/
theorem specWordsDecode : Obligations.SpecWordsDecode := by
  unfold Obligations.SpecWordsDecode
  decide

theorem and_seven_eq (a : Byte) : a &&& 0x07 = BitVec.ofNat 8 (a.toNat % 8) := by
  rw [← toNat_and_seven, BitVec.ofNat_toNat, BitVec.setWidth_eq]

/-- Settles O16: the bits of each command, flag by flag, and a slot mod 8. -/
theorem pseudoOperationBytes : Obligations.PseudoOperationBytes := by
  intro p q r a text
  refine ⟨rfl, ?_, ?_, ?_, ?_, ?_, ?_, rfl, ?_, rfl⟩
  · revert p q; decide
  · revert p q r; decide
  · revert p q; decide
  · revert p q r; decide
  · revert a; decide
  · revert a; decide
  · simp only [Pseudo.expand, and_seven_eq]

/-- Settles O11: the sum mod 128, which no column to 43 reaches. -/
theorem resolvedAddress : Obligations.ResolvedAddress := by
  have hresolve : ∀ line col, (resolve line col).toNat = (lineBase line + col.toNat) % 128 := fun _ _ =>
    BitVec.toNat_ofNat _ _
  refine ⟨by decide, fun line h => ?_, hresolve, fun line col h => ?_, by decide⟩
  · simp only [List.mem_cons, List.not_mem_nil, or_false, not_or] at h
    obtain ⟨h1, h2, h3, h4⟩ := h
    rw [lineBase, if_neg h1, if_neg h2, if_neg h3, if_neg h4]
  · have hbase : lineBase line ≤ 0x54 := by
      unfold lineBase
      split_ifs <;> decide
    have hzero : (0 : Byte).toNat = 0 := rfl
    rw [hresolve, hresolve, hzero]
    omega

theorem setDdramCommand_eq (line col : Byte) : setDdramCommand line col = setDdramAddressByte (resolve line col) := by
  rw [setDdramCommand]
  generalize resolve line col = a
  revert a
  decide

/-- Settles O12: the cursor command is the Set-DDRAM-Address byte of the resolved address. -/
theorem cursorCommandIsSetDdram : Obligations.CursorCommandIsSetDdram := by
  intro line col
  rw [setDdramCommand_eq]
  generalize resolve line col = a
  refine ⟨?_, ?_, decodeCommand_setDdramAddressByte a⟩ <;> revert a <;> decide

/-- Settles O9: each value has its nibble and its RS in their fields, and the two nibbles make up the byte. -/
theorem encoderProperties : Obligations.EncoderProperties := by
  intro c hc
  have hdata := fun n rs => (xactValue_fields hc n rs).1
  have hrs := fun n rs => (xactValue_fields hc n rs).2.1
  refine ⟨fun b rs => ⟨?_, ?_⟩, fun b b' rs rs' h => ?_, fun rs => rfl⟩
  · rw [encodeByte, hdata, hdata]
    exact hiNibble_append_loNibble b
  · rintro v (rfl | rfl) <;> exact (xactValue_fields hc _ rs).2
  · obtain ⟨hhi, hlo⟩ := Prod.mk.inj h
    refine ⟨?_, ?_⟩
    · rw [← hiNibble_append_loNibble b, ← hiNibble_append_loNibble b', ← hdata (hiNibble b) rs, hhi, hdata,
        ← hdata (loNibble b) rs, hlo, hdata]
    · rw [← hrs (hiNibble b) rs, hhi, hrs]

end Sys2Proof.Machine
end

section
/-! Proofs of the statements about whole operations and single instructions: an operation served to its end or to a
failed write, what each instruction is accepted as, refusals, waiting and recovery by reset. -/

namespace Sys2Proof.Machine

/-! ## A single event (20_memory.md R50, R63) -/

/-- Settles O34: by the equation of a step at an answered write. -/
theorem failedWriteAborts : Obligations.FailedWriteAborts := by
  intro s op v todo t rest hb hseq hi
  rw [step_answer hb hseq hi, answered_failure _ (s := { s with inputs := rest }) hseq]
  constructor <;> intro hop <;> simp only [hop, ↓reduceIte, State.issued]

/-- Settles O35: by the equation of a step at a delay, the timer compared with the delay. -/
theorem delayHoldsItsTime : Obligations.DelayHoldsItsTime := by
  intro s op n m t todo rest hb hseq hi
  rw [step_elapse hb hseq hi]
  have hdone : ∀ todo, s.seq = some ⟨op, .delay n :: todo, t⟩ →
      (record (.D n) { s with inputs := rest }).seq = some ⟨op, .delay n :: todo, t⟩ := fun _ h => h
  refine ⟨fun hlt => ?_, fun hge hne => ?_, fun hge hnil => ?_⟩
  · simp [Nat.not_le_of_lt hlt, tick, hseq]
  · obtain ⟨p, todo, rfl⟩ := List.exists_cons_of_ne_nil hne
    rw [if_pos hge, advance_more (hdone _ hseq)]
    rfl
  · subst hnil
    rw [if_pos hge, advance_last (hdone _ hseq)]
    rfl

/-! ## An operation served to its end (R226) -/

theorem serve_cons (late : Nat → Nat) (k : Nat) (p : Pending) (todo : List Pending) :
    serve late k (p :: todo) = serve late k [p] ++ serve late (k + 1) todo := by
  cases p <;> rfl

theorem performed_cons (c : Config) (bl : Bool) (p : Pending) (todo : List Pending) :
    performed c bl (p :: todo) = performed c bl [p] ++ performed c bl todo :=
  performed_append c bl [p] todo

section
variable {s : State} {op : Instr} {p : Pending} {todo : List Pending} {t : Nat} {late : Nat → Nat} {k : Nat}
  {rest : List Input}

/-- The step of an event that is served: it enters the trace and the sequencer advances. -/
theorem step_served (hb : s.busy = true) (hseq : s.seq = some ⟨op, p :: todo, t⟩)
    (hi : s.inputs = serve late k [p] ++ rest) :
    step s = .next (advance { s with trace := s.trace ++ performed s.cfg s.bl [p], inputs := rest }) := by
  cases p with
  | write v =>
    rw [step_answer hb hseq hi]
    rfl
  | delay n =>
    rw [step_elapse hb hseq hi, if_pos (by omega)]
    rfl

theorem step_served_last (hb : s.busy = true) (hseq : s.seq = some ⟨op, [p], t⟩)
    (hi : s.inputs = serve late k [p] ++ rest) :
    step s = .next { s with
      life := if op = .init then .ready else s.life
      busy := false
      seq := none
      inputs := rest
      trace := s.trace ++ performed s.cfg s.bl [p]
      responses := s.responses ++ [.done] } := by
  rw [step_served hb hseq hi,
    advance_last (s := { s with trace := s.trace ++ performed s.cfg s.bl [p], inputs := rest }) hseq]
  rfl

theorem step_served_more (hb : s.busy = true) (hseq : s.seq = some ⟨op, p :: todo, t⟩) (hne : todo ≠ [])
    (hi : s.inputs = serve late k [p] ++ rest) :
    step s = .next { s with
      seq := some ⟨op, todo, 0⟩
      trace := s.trace ++ performed s.cfg s.bl [p]
      inputs := rest } := by
  obtain ⟨p', todo, rfl⟩ := List.exists_cons_of_ne_nil hne
  rw [step_served hb hseq hi,
    advance_more (s := { s with trace := s.trace ++ performed s.cfg s.bl [p], inputs := rest }) hseq]

end

/-- Settles O38, by induction on the events still to perform. -/
theorem operationRunsToDone : Obligations.OperationRunsToDone := by
  intro s op todo late k rest hne hb hseq hi
  induction todo generalizing s k with
  | nil => exact absurd rfl hne
  | cons p todo ih =>
    rw [serve_cons, List.append_assoc] at hi
    cases todo with
    | nil => exact run_next 0 (step_served_last hb hseq hi)
    | cons p' todo =>
      have hmore : p' :: todo ≠ [] := List.cons_ne_nil _ _
      rw [List.length_cons, run_next _ (step_served_more hb hseq hmore hi)]
      refine Eq.trans (ih _ (k + 1) hmore hb rfl rfl) ?_
      rw [performed_cons s.cfg s.bl p (p' :: todo), ← List.append_assoc]

/-- Settles O39, by induction on the events before the failed write. -/
theorem operationAbortsAtFailedWrite : Obligations.OperationAbortsAtFailedWrite := by
  intro s op before after v late k rest hb hseq hi
  induction before generalizing s k with
  | nil =>
    have hstep := step_answer hb hseq hi
    rw [answered_failure _ (s := { s with inputs := rest }) hseq] at hstep
    simpa [performed, State.issued] using run_next 0 hstep
  | cons p before ih =>
    rw [serve_cons, List.append_assoc] at hi
    rw [List.length_cons, run_next _ (step_served_more hb hseq (by simp) hi)]
    refine Eq.trans (ih _ (k + 1) hb rfl rfl) ?_
    rw [performed_cons s.cfg s.bl p before, ← List.append_assoc]

/-! ## What each instruction is accepted as -/

/-- An operation that `exec` accepts runs through its events to `DONE`. -/
theorem completes_of_exec {i op : Instr} {events : List Pending} {s : State} (hop : op ≠ .init) (hne : events ≠ [])
    (h : exec i s = .next (accept op events s)) : Completes i op events s := by
  refine ⟨h, fun late rest hi => ?_⟩
  refine Eq.trans (operationRunsToDone _ op events late 0 rest hne rfl rfl hi) ?_
  rw [if_neg hop]

theorem operate_ready {op : Instr} {events : List Pending} {s : State} (hr : s.Ready) :
    operate op events s = .next (accept op events s) :=
  whenReady_ready _ hr

theorem completes_sendByte {i op : Instr} {b : Byte} {rs : Bool} {s : State} (hr : s.Ready) (hop : op ≠ .init)
    (h : exec i s = operate op (sendByte s.cfg b rs) s) : Completes i op (sendByte s.cfg b rs) s :=
  completes_of_exec hop (sendByte_ne_nil _ _ _) (h.trans (operate_ready hr))

/-- An operation that begins with a byte. -/
theorem completes_sendByte_append {i op : Instr} {b : Byte} {rs : Bool} {more : List Pending} {s : State}
    (hr : s.Ready) (hop : op ≠ .init) (h : exec i s = operate op (sendByte s.cfg b rs ++ more) s) :
    Completes i op (sendByte s.cfg b rs ++ more) s :=
  completes_of_exec hop (List.append_ne_nil_of_left_ne_nil (sendByte_ne_nil _ _ _) _) (h.trans (operate_ready hr))

/-- Settles O18: each is one byte sent. -/
theorem byteRequestsComplete : Obligations.ByteRequestsComplete :=
  fun _ _ hr => ⟨completes_sendByte hr (by simp) rfl, completes_sendByte hr (by simp) rfl⟩

/-- Settles O19: each begins with a command byte sent. -/
theorem clearAndScrollsComplete : Obligations.ClearAndScrollsComplete :=
  fun _ hr => ⟨completes_sendByte_append hr (by simp) rfl, completes_sendByte hr (by simp) rfl,
    completes_sendByte hr (by simp) rfl⟩

/-- Settles O20: `BACKLIGHT` is accepted in `READY` and answers at once. -/
theorem backlightCompletes : Obligations.BacklightCompletes := by
  intro s on hr
  obtain ⟨hb, -⟩ := id hr
  rw [exec, execBacklight, whenReady_ready _ hr]
  simp [respond, accept, hb]

/-- Settles O21: the cursor command is sent, and behind it the data bytes. -/
theorem cursorRequestsComplete : Obligations.CursorRequestsComplete :=
  fun _ _ _ _ hr => ⟨completes_sendByte hr (by simp) rfl, completes_sendByte_append hr (by simp) rfl⟩

/-- A `LDGLYPH` of a slot the configuration admits is accepted with its events. -/
theorem exec_ldglyph_admitted {s : State} {slot : Byte} (g : Glyph) (hr : s.Ready)
    (h : s.cfg.strictSlot = false ∨ slot.toNat ≤ 7) :
    exec (.ldglyph slot g) s = .next (accept (.ldglyph slot g) (ldglyphEvents s.cfg slot g) s) := by
  have hadmit : ¬ (s.cfg.strictSlot = true ∧ 7 < slot.toNat) := by
    rcases h with h | h
    · simp [h]
    · exact fun hstrict => absurd hstrict.2 (Nat.not_lt_of_le h)
  rw [exec, execLdglyph, whenReady_ready _ hr, if_neg hadmit]

/-- Settles O22: the CGRAM command is sent, and behind it the rows; an admitted slot does not fault. -/
theorem glyphRequestsComplete : Obligations.GlyphRequestsComplete := by
  intro s slot g gs hr
  refine ⟨fun h => ?_, completes_sendByte_append hr (by simp) rfl⟩
  exact completes_of_exec (by simp) (List.append_ne_nil_of_left_ne_nil (sendByte_ne_nil _ _ _) _)
    (exec_ldglyph_admitted g hr h)

/-- Settles O23: a strict slot above 7 raises before any event. -/
theorem strictSlotFaults : Obligations.StrictSlotFaults := by
  intro s slot g hr hs hslot
  obtain ⟨hb, -⟩ := id hr
  rw [exec, execLdglyph, whenReady_ready _ hr, if_pos ⟨hs, hslot⟩, raise_eq,
    reportedKind_invalidSlot]
  simp only [accept, hb, reduceCtorEq, ↓reduceIte]
  rfl

/-- A command byte of either format is sent as `WRCMD` of it (R107; logs 11 and 12). -/
theorem exec_commandByte {i : Instr} {b : Byte} {s : State}
    (h : encode s.cfg i = .cmd b ∨ encode s.cfg i = .cmdFixed b) : exec i s = sendCommand b s := by
  cases i <;> simp only [encode, Code.cmd.injEq, Code.cmdFixed.injEq, reduceCtorEq, or_false, false_or] at h <;>
    exact h ▸ rfl

theorem completes_commandByte {i : Instr} {b : Byte} {s : State} (hr : s.Ready)
    (h : encode s.cfg i = .cmd b ∨ encode s.cfg i = .cmdFixed b) :
    Completes i (.wrcmd b) (sendByte s.cfg b false) s :=
  completes_sendByte hr (by simp) (exec_commandByte h)

/-- Settles O25: each instruction encodes to the byte its bits spell. -/
theorem commandBytesComplete : Obligations.CommandBytesComplete := by
  intro s p q r x cg dd i b hr hmem
  refine completes_commandByte hr (.inl ?_)
  simp only [List.mem_cons, Prod.mk.injEq, List.not_mem_nil, or_false] at hmem
  rcases hmem with ⟨rfl, rfl⟩ | ⟨rfl, rfl⟩ | ⟨rfl, rfl⟩ | ⟨rfl, rfl⟩ | ⟨rfl, rfl⟩ | ⟨rfl, rfl⟩ | ⟨rfl, rfl⟩ |
    ⟨rfl, rfl⟩ <;> rfl

/-- Settles O26: each instruction encodes to the byte of the configuration. -/
theorem fixedCommandsComplete : Obligations.FixedCommandsComplete := by
  intro s i b hr hmem
  refine completes_commandByte hr (.inr ?_)
  simp only [List.mem_cons, Prod.mk.injEq, List.not_mem_nil, or_false] at hmem
  rcases hmem with ⟨rfl, rfl⟩ | ⟨rfl, rfl⟩ | ⟨rfl, rfl⟩ | ⟨rfl, rfl⟩ | ⟨rfl, rfl⟩ | ⟨rfl, rfl⟩ | ⟨rfl, rfl⟩ <;> rfl

/-- `INIT` is accepted from `UNINIT` alone. -/
theorem exec_init_uninit {s : State} (hb : s.busy = false) (hl : s.life = .uninit) :
    exec .init s = .next (accept .init (initEvents s.cfg) { s with life := .initializing }) := by
  simp [exec, execInit, hb, hl]

/-- Settles O17: the acceptance of `INIT`, then its events to the end. -/
theorem initCompletes : Obligations.InitCompletes := by
  intro s hb hl
  refine ⟨by simp [initEvents], exec_init_uninit hb hl, fun late rest hi => ?_⟩
  exact operationRunsToDone _ .init _ late 0 rest (initEvents_ne_nil s.cfg) rfl rfl hi

/-! ## Refusals and waiting (R221, R272) -/

/-- The reserved request codes. -/
theorem exec_reserved {i : Instr} (hi : i ∈ [Instr.reservedB, .reservedC, .reservedD, .reservedE, .reservedF])
    (s : State) : exec i s = refuseIllegal s := by
  simp only [List.mem_cons, List.not_mem_nil, or_false] at hi
  rcases hi with rfl | rfl | rfl | rfl | rfl <;> rfl

theorem refuseIllegal_idle {s : State} (hb : s.busy = false) : refuseIllegal s = .next (refuse .illegalRequest s) := by
  simp [refuseIllegal, hb]

/-- Settles O24: an idle block refuses what spells no operation. -/
theorem reservedCodesRefused : Obligations.ReservedCodesRefused :=
  fun s _ hb hi => (exec_reserved hi s).trans (refuseIllegal_idle hb)

/-- Every instruction but `INIT`, the reserved codes and XACT is accepted in `READY` alone. -/
theorem exec_notReady {i : Instr} {s : State} (hb : s.busy = false) (hl : s.life ≠ .ready) (hi : i ≠ .init)
    (hx : (tableRow i).format ≠ .xact)
    (hres : i ∉ [Instr.reservedB, .reservedC, .reservedD, .reservedE, .reservedF]) :
    exec i s = .next (refuse .notReady s) := by
  cases i with
  | init => exact absurd rfl hi
  | reservedB | reservedC | reservedD | reservedE | reservedF => simp at hres
  | xact => exact absurd rfl hx
  | backlight | ldglyph =>
    simp only [exec, execBacklight, execLdglyph]
    exact whenReady_notReady _ hb hl
  | _ => exact whenReady_notReady _ hb hl

theorem exec_init_refused {s : State} (hb : s.busy = false) (hl : s.life ≠ .uninit) :
    exec .init s = .next (refuse .notUninit s) := by
  simp [exec, execInit, hb, hl]

/-- Settles O28: `INIT` outside `UNINIT`, and every other operation outside `READY`. -/
theorem lifecycleRefusals : Obligations.LifecycleRefusals :=
  fun _ _ hb => ⟨exec_init_refused hb, exec_notReady hb⟩

theorem Decided.eq_of_busy {i : Instr} {s t : State} (h : Decided i s t) (hb : s.busy = true) : t = s := by
  cases h with
  | waits => rfl
  | refuses _ hidle | starts _ hidle => simp [hb] at hidle
  | accepts _ _ _ _ _ hr | lights _ _ hr | strict _ _ _ _ _ hr => simp [State.Ready, hb] at hr

/-- A busy block lets an input pass that is no answer to its write and no time on its delay. -/
theorem step_busy_passes {s : State} (inv : StateInv s) (hb : s.busy = true) (hr : s.resetAsserted = false)
    (hanswer : ∀ a rest, s.inputs ≠ .answer a :: rest) (helapse : ∀ m rest, s.inputs ≠ .elapse m :: rest) :
    step s = .next (passInput s) := by
  obtain ⟨op, p, todo, t, hseq⟩ := inv.exists_seq hb
  cases p with
  | write v => rw [step_write hr hb (outstanding_of_seq hseq), awaitAnswer_passes _ hanswer]
  | delay n => rw [step_delay hr hb (outstanding_of_seq hseq), awaitDelay_passes _ helapse]

/-- Settles O29: of what `exec` can do a busy block only waits, and a request presented is no input it waits for. -/
theorem busyBlockDecidesNothing : Obligations.BusyBlockDecidesNothing := by
  refine ⟨fun s i hb hx => ?_, fun s q rest inv hb hi => ?_⟩
  · obtain ⟨t, ht⟩ := exec_next s hx
    rw [ht, (exec_decided hx ht).eq_of_busy hb]
  · rw [step_busy_passes inv hb (resetAsserted_of_inputs hi (by simp)) (by simp [hi]) (by simp [hi]), passInput, hi]

theorem decodeReserved_mem {op : BitVec 4} {i : Instr} (h : decodeReserved op = some i) :
    i ∈ [Instr.reservedB, .reservedC, .reservedD, .reservedE, .reservedF] := by
  unfold decodeReserved at h
  split at h <;> cases h <;> simp

/-- Settles O30: a reserved code decodes to its constructor, a wrong length to no instruction; both are refused. -/
theorem malformedRequestRefused : Obligations.MalformedRequestRefused := by
  intro s op a b len payload rest hb hr hp hbad
  rw [step_idle_cons hr hb hp]
  refine Eq.trans ?_ (refuseIllegal_idle (s := { s with port := rest }) hb)
  cases hres : decodeReserved op with
  | some i =>
    rw [decideRequest, decodeRequest_reserved hres]
    exact exec_reserved (decodeReserved_mem hres) _
  | none =>
    have hcode : ∀ op : BitVec 4, decodeReserved op = none → op.toNat < 11 := by decide
    have hlen := hbad.resolve_left (Nat.not_le_of_lt (hcode op hres))
    rw [← payloadLength_requestWord op a b len] at hlen
    simp [decideRequest, decodeRequest, hres, hlen]

/-- Settles O36: without input a step passes nothing, and a run repeats it. -/
theorem waitsWithoutInput : Obligations.WaitsWithoutInput := by
  intro s k inv hi hwait
  have hpass : passInput s = s := by rw [passInput, hi]
  have hr := resetAsserted_of_no_inputs hi
  have hstep : step s = .next s := by
    cases hb : s.busy with
    | true => rw [step_busy_passes inv hb hr (by simp [hi]) (by simp [hi]), hpass]
    | false => rw [step_idle_empty hr hb (hwait.resolve_left (by simp [hb])), hpass]
  induction k with
  | zero => rfl
  | succ k ih => rw [run_next k hstep, ih]

/-- Settles O37: reset is looked at before anything else. -/
theorem resetLeavesResetValues : Obligations.ResetLeavesResetValues := by
  refine ⟨fun s rest hi => ?_, by decide⟩
  rw [step_reset (by simp [State.resetAsserted, hi]), takeReset, hi]
  rfl

/-! ## The step and `exec` (logs 1, 3, 13, 15) -/

/-- Settles O31: by the equation of a step of an idle block. -/
theorem stepRunsDecodedRequest : Obligations.StepRunsDecodedRequest := by
  intro s q rest i hb hr hp hq
  rw [step_idle_cons hr hb hp, decideRequest, hq]

section
variable {s : State} {data : Nibble} {bl en rs : Bool}

theorem exec_xact (h : s.byteOnTransport = some (transactionByte s.cfg data bl en rs)) :
    exec (.xact data bl en rs) s = .next (awaitAnswer (transactionByte s.cfg data bl en rs) s) := by
  rw [exec, execXact, if_pos h]

theorem byteOnTransport_eq {v : Byte} (hb : s.busy = true) (hv : s.outstanding = some (.write v)) :
    s.byteOnTransport = some (s.issued v) := by
  rw [State.byteOnTransport, hb, hv]

/-- A step of a block at a write runs the transaction byte it issues. -/
theorem step_eq_exec_xact {v : Byte} (hb : s.busy = true) (hr : s.resetAsserted = false)
    (hv : s.outstanding = some (.write v)) (hx : s.issued v = transactionByte s.cfg data bl en rs) :
    step s = exec (.xact data bl en rs) s := by
  rw [step_write hr hb hv, exec_xact (by rw [byteOnTransport_eq hb hv, hx]), hx]

end

/-- Settles O27: XACT awaits the answer to its byte, where that is the one outstanding. -/
theorem transactionWritten : Obligations.TransactionWritten := by
  intro s data bl en rs op v p todo t rest
  refine ⟨fun hb hseq hx => ?_, fun h => by rw [exec, execXact, if_neg h]⟩
  have hbyte : s.byteOnTransport = some (transactionByte s.cfg data bl en rs) := by
    rw [byteOnTransport_eq hb (outstanding_of_seq hseq), hx, State.issued]
  rw [exec_xact hbyte]
  refine ⟨fun hi => ?_, fun hi => by rw [awaitAnswer_passes _ (by simp [hi]), passInput, hi]⟩
  have hmore : (record (.W (transactionByte s.cfg data bl en rs)) { s with inputs := rest }).seq =
      some ⟨op, .write v :: p :: todo, t⟩ := hseq
  rw [awaitAnswer_answer _ hi]
  exact congrArg _ (advance_more hmore)

/-- Settles O32: the byte on the transport is the transaction byte of the instruction it decodes to. -/
theorem stepRunsOutstandingTransaction : Obligations.StepRunsOutstandingTransaction := by
  intro s op v todo t i hc hb hr hseq hi
  have hbyte := encode_of_decodeTransaction hc hi
  simp only [decode, decodeTransaction] at hi
  split_ifs at hi
  cases hi
  exact step_eq_exec_xact hb hr (outstanding_of_seq hseq) (Code.xact.inj hbyte).symm

theorem head?_dropResets (inputs : List Input) : (dropResets inputs).head? ≠ some .reset := by
  induction inputs with
  | nil => simp [dropResets]
  | cons x rest ih => cases x <;> simp [dropResets, ih]

/-- A placed request is decided by the next step. -/
theorem step_placeRequest (q : Request) (s : State) :
    step (placeRequest q s) = decideRequest q { placeRequest q s with port := s.port } := by
  have hr : (placeRequest q s).resetAsserted = false := by simp [State.resetAsserted, head?_dropResets]
  exact step_idle_cons hr rfl rfl

/-- A command byte is given as `WRCMD` of it, which does what the command byte does. -/
theorem decideRequest_requestOf {i : Instr} {b : Byte} {s : State} {c : Config} (hc : s.cfg = c)
    (h : encode c i = .cmd b ∨ encode c i = .cmdFixed b) : decideRequest (requestOf c i) s = exec i s := by
  have hq : requestOf c i = ⟨requestWord 0x1 b 0 0, []⟩ := by
    rcases h with h | h <;> rw [requestOf, h]
  have hdecode : decodeRequest (requestWord 0x1 b 0 0) [] = .ok (.wrcmd b) :=
    decodeRequest_no_payload rfl (by decide) (by simp [decodeOperation])
  rw [hq, decideRequest, hdecode, exec_commandByte (hc ▸ h)]
  rfl

/-- A table byte is a command byte of its instruction, or its instruction is a transaction byte. -/
theorem decodeTableByte_cases {b : Byte} {i : Instr} (h : decodeTableByte b = some i) :
    (encode Config.default i = .cmd b ∨ encode Config.default i = .cmdFixed b) ∨ (tableRow i).format = .xact := by
  unfold decodeTableByte at h
  split_ifs at h with hclear
  · cases h
    exact .inl (.inl (congrArg Code.cmd hclear.symm))
  · split at h
    · cases h
      exact .inl (.inr (encode_of_decodeFixed ‹_›))
    · split at h
      · cases h
        exact .inl (.inl (encode_of_decodeCommand _ ‹_›))
      · unfold decodeTransaction at h
        split_ifs at h <;> cases h
        exact .inr rfl

/-- What a table word decodes to, placed as a request, is decided as the instruction. -/
theorem exists_placeTableWord_eq {s : State} {nbits w : Nat} {i : Instr} (hcfg : s.cfg = Config.default)
    (h : decodeTableWord nbits w = some i) (hx : (tableRow i).format ≠ .xact) :
    ∃ q, placeTableWord nbits w s = placeRequest q s ∧
      ∀ t : State, t.cfg = Config.default → decideRequest q t = exec i t := by
  rw [placeTableWord, h]
  split
  · contradiction
  · next hi =>
    cases hi
    exact absurd rfl hx
  · next hi =>
    cases hi
    unfold decodeTableWord at h
    split_ifs at h with hbits
    · obtain ⟨b, hb⟩ : ∃ b, encode Config.default i = .cmd b ∨ encode Config.default i = .cmdFixed b :=
        ⟨_, (decodeTableByte_cases h).resolve_right hx⟩
      rw [if_pos hbits, hcfg]
      exact ⟨_, rfl, fun t ht => decideRequest_requestOf ht hb⟩
    · rw [if_neg hbits]
      refine ⟨_, rfl, fun t _ => ?_⟩
      cases hq : decodeRequest (BitVec.ofNat 28 w) (zeroPayload (BitVec.ofNat 28 w)) with
      | error e => simp [hq, Except.toOption] at h
      | ok j =>
        obtain rfl : j = i := by simpa [hq, Except.toOption] using h
        simp only [decideRequest, hq]

/-- A placed transaction byte is on the transport. -/
theorem placeTransaction_outstanding {s : State} (hc : s.cfg.wf = true) (data : Nibble) (bl en rs : Bool) :
    ∃ v, (placeTransaction data bl en rs s).outstanding = some (.write v) ∧
      (placeTransaction data bl en rs s).issued v = transactionByte s.cfg data bl en rs := by
  cases en with
  | true => exact ⟨_, rfl, xactValue_enableHigh s.cfg data rs bl⟩
  | false =>
    refine ⟨_, rfl, ?_⟩
    rw [xactValue_and_not_enable hc]
    exact xactValue_enableLow s.cfg data rs bl

/-- Settles O33: a placed request is the next one decided, a placed transaction byte the one on the transport. -/
theorem fetchWordRunsNext : Obligations.FetchWordRunsNext := by
  intro s nbits w i hcfg h
  refine ⟨fun hx => ?_, fun hx => ?_⟩
  · obtain ⟨q, hplace, hexec⟩ := exists_placeTableWord_eq hcfg h hx
    rw [State.withFetchWord, hplace, step_placeRequest]
    exact hexec _ hcfg
  · cases i with
    | xact data bl en rs =>
      have hplace : s.withFetchWord nbits w = placeTransaction data bl en rs s := by
        rw [State.withFetchWord, placeTableWord, h]
      have hc : s.cfg.wf = true := by
        rw [hcfg]
        decide
      obtain ⟨v, hv, hissued⟩ := placeTransaction_outstanding hc data bl en rs
      rw [hplace]
      exact step_eq_exec_xact rfl rfl hv hissued
    | _ => simp [tableRow] at hx

/-! ## Recovery by reset (R302, R303, R314) -/

/-- A request that is not `INIT` is refused in `UNINIT`. -/
theorem step_refuses {s : State} {w : Request} {rest : List Request} (hb : s.busy = false)
    (hr : s.resetAsserted = false) (hl : s.life = .uninit) (hp : s.port = w :: rest)
    (hw : decodeRequest w.word w.payload ≠ .ok .init) : ∃ r, step s = .next (refuse r { s with port := rest }) := by
  have hlife : ({ s with port := rest } : State).life ≠ .ready := by simp [hl]
  rw [step_idle_cons hr hb hp, decideRequest]
  split
  · next i hq =>
    have hx : (tableRow i).format ≠ .xact := by simp [(decodeRequest_spec hq).2]
    have hi : i ≠ .init := fun h => hw (h ▸ hq)
    by_cases hres : i ∈ [Instr.reservedB, .reservedC, .reservedD, .reservedE, .reservedF]
    · exact ⟨_, (exec_reserved hres _).trans (refuseIllegal_idle hb)⟩
    · exact ⟨_, exec_notReady hb hlife hi hx hres⟩
  · exact ⟨_, refuseIllegal_idle hb⟩

/-- The requests before `INIT` are refused one by one, and what is behind them stays. -/
theorem run_refuses {before after : List Request} {s : State} (hb : s.busy = false) (hr : s.resetAsserted = false)
    (hl : s.life = .uninit) (hp : s.port = before ++ after)
    (hw : ∀ w ∈ before, decodeRequest w.word w.payload ≠ .ok .init) :
    ∃ reasons : List RefuseReason, reasons.length = before.length ∧ ∀ k, run (before.length + k) s =
      run k { s with port := after, responses := s.responses ++ reasons.map .refused } := by
  induction before generalizing s with
  | nil =>
    rw [List.nil_append] at hp
    exact ⟨[], rfl, fun k => by simp [← hp]⟩
  | cons w before ih =>
    rw [List.forall_mem_cons] at hw
    obtain ⟨r, hstep⟩ := step_refuses hb hr hl hp hw.1
    obtain ⟨reasons, hlen, hrun⟩ := ih (s := refuse r { s with port := before ++ after }) hb hr hl rfl hw.2
    refine ⟨r :: reasons, by rw [List.length_cons, hlen, List.length_cons], fun k => ?_⟩
    rw [List.length_cons, Nat.add_right_comm, run_next _ hstep]
    refine (hrun k).trans (congrArg (run k) ?_)
    simp [refuse]

/-- `INIT` found at the port after reset is accepted and runs to `READY`. -/
theorem run_init_at_port (c : Config) (responses : List Response) {q : Request} (after : List Request)
    (late : Nat → Nat) (rest : List Input) (hq : decodeRequest q.word q.payload = .ok .init) :
    run ((initEvents c).length + 1) { State.resetOf c with
        responses := responses, port := q :: after, inputs := serve late 0 (initEvents c) ++ rest } =
      .next { State.resetOf c with
        life := .ready
        trace := performed c c.blReset (initEvents c)
        responses := responses ++ [.done]
        port := after
        inputs := rest } := by
  have hstep := (stepRunsDecodedRequest { State.resetOf c with
    responses := responses, port := q :: after, inputs := serve late 0 (initEvents c) ++ rest } q after .init rfl rfl
    rfl hq).trans (exec_init_uninit rfl rfl)
  exact (run_next _ hstep).trans (operationRunsToDone _ .init _ late 0 rest (initEvents_ne_nil c) rfl rfl rfl)

/-- Settles O40: reset, the refusals, `INIT` presented or found at the port, and its events. -/
theorem resetThenInitRecovers : Obligations.ResetThenInitRecovers := by
  intro s late before after q rest hbefore hq
  have hreset : ∀ inputs, s.inputs = .reset :: inputs →
      step s = .next { State.resetOf s.cfg with port := s.port, inputs := inputs } := fun inputs hi => by
    rw [step_reset (by simp [State.resetAsserted, hi]), takeReset, hi, List.tail_cons]
  refine ⟨fun hp hi => ?_, fun hp hi => ?_⟩
  · obtain ⟨reasons, hlen, hrun⟩ := run_refuses (after := []) (s := { State.resetOf s.cfg with
      port := s.port, inputs := .present q :: (serve late 0 (initEvents s.cfg) ++ rest) }) rfl rfl rfl
      (by simp [hp]) hbefore
    refine ⟨reasons, hlen, ?_⟩
    have hsteps : 3 + before.length + (initEvents s.cfg).length =
        before.length + ((initEvents s.cfg).length + 1 + 1) + 1 := by omega
    rw [hsteps, run_next _ (hreset _ hi), hrun, run_next _ (step_idle_empty rfl rfl rfl)]
    exact run_init_at_port s.cfg _ [] late rest hq
  · obtain ⟨reasons, hlen, hrun⟩ := run_refuses (after := q :: after) (s := { State.resetOf s.cfg with
      port := s.port, inputs := serve late 0 (initEvents s.cfg) ++ rest }) rfl rfl rfl hp hbefore
    refine ⟨reasons, hlen, ?_⟩
    have hsteps : 2 + before.length + (initEvents s.cfg).length =
        before.length + ((initEvents s.cfg).length + 1) + 1 := by omega
    rw [hsteps, run_next _ (hreset _ hi), hrun]
    exact run_init_at_port s.cfg _ after late rest hq

end Sys2Proof.Machine
end

section
/-! Proofs of the rules over all steps and of the frames: what deciding an instruction changes, field by field, and
from it and from the effect of a step the rules on the trace, the responses, the lifecycle, the fault and the sequencer. -/

namespace Sys2Proof.Machine

/-! ## What deciding an instruction changes -/

namespace Decided
variable {i : Instr} {s t : State}

theorem port_eq (h : Decided i s t) : t.port = s.port := by
  cases h <;> simp [raise_eq]

theorem inputs_eq (h : Decided i s t) : t.inputs = s.inputs := by
  cases h <;> simp [raise_eq]

theorem bl_cases (h : Decided i s t) : t.bl = s.bl ∨ ∃ on, i = .backlight on ∧ t.bl = on ∧ s.Ready := by
  cases h with
  | lights on hi hr => exact .inr ⟨on, hi, rfl, hr⟩
  | strict => exact .inl (raise_bl _ _ _)
  | _ => exact .inl rfl

theorem life_cases (h : Decided i s t) :
    t.life = s.life ∨ (i = .init ∧ s.life = .uninit ∧ t.life = .initializing ∧ t.running = some .init) := by
  cases h with
  | starts hi _ hl => exact .inr ⟨hi, hl, rfl, rfl⟩
  | strict => simp [raise_eq, reportedKind]
  | _ => exact .inl rfl

/-- The first fault is recorded by a strict `LDGLYPH` alone, which answers with its error. -/
theorem fault_cases (h : Decided i s t) : (t.fault = s.fault ∧ t.faultByte = s.faultByte) ∨
    ∃ slot g, i = .ldglyph slot g ∧ s.Ready ∧ s.cfg.strictSlot = true ∧ 7 < slot.toNat ∧ s.fault = .none ∧
      t.fault = .invalidSlot ∧ t.faultByte = slot ∧ t.responses = s.responses ++ [.error .invalidSlot] := by
  cases h with
  | strict slot g hi hs hslot hr =>
    by_cases hf : s.fault = .none
    · exact .inr ⟨slot, g, hi, hr, hs, hslot, hf, by simp [raise_eq, reportedKind, hf, ErrorKind.faultCode]⟩
    · exact .inl (by simp [raise_eq, hf])
  | _ => exact .inl ⟨rfl, rfl⟩

/-- An idle block is busy afterwards without a response, or idle with one. -/
theorem responses_cases (h : Decided i s t) (hb : s.busy = false) :
    (t.busy = true ∧ t.responses = s.responses) ∨ (t.busy = false ∧ ∃ r, t.responses = s.responses ++ [r]) := by
  cases h with
  | waits hbusy => simp [hb] at hbusy
  | starts | accepts => exact .inl ⟨rfl, rfl⟩
  | refuses r => exact .inr ⟨hb, _, rfl⟩
  | lights => exact .inr ⟨rfl, _, rfl⟩
  | strict => exact .inr ⟨by simp [raise_eq], _, by simp [raise_eq]; rfl⟩

/-- An accepted operation stands at position 0. -/
theorem seqPc_eq_zero (h : Decided i s t) (hb : s.busy = false) (ht : t.busy = true) : t.seqPc = some 0 := by
  cases h with
  | starts => simp [State.seqPc, eventsOf]
  | accepts => simp [State.seqPc]
  | waits | refuses => simp [hb] at ht
  | lights | strict => simp [raise_eq] at ht

/-- The sequencer is left as it was, or set to the start of the events of an accepted operation, or the block answers
and is idle. -/
theorem sequencer_cases (h : Decided i s t) :
    (t.responses = s.responses ∧
        ((t.busy = s.busy ∧ t.seq = s.seq) ∨
          (t.busy = true ∧ ∃ op, t.seq = some ⟨op, eventsOf s.cfg op, 0⟩ ∧
            ((tableRow i).format = .req ∧ op = i ∨
              ∃ b, op = .wrcmd b ∧ (encode s.cfg i = .cmd b ∨ encode s.cfg i = .cmdFixed b))))) ∨
      (∃ r, t.responses = s.responses ++ [r]) ∧ t.busy = false ∧ (t.seq = s.seq ∨ t.seq = none) := by
  cases h with
  | waits => exact .inl ⟨rfl, .inl ⟨rfl, rfl⟩⟩
  | refuses r hb => exact .inr ⟨⟨_, rfl⟩, hb, .inl rfl⟩
  | starts hi => exact .inl ⟨rfl, .inr ⟨rfl, .init, rfl, .inl (by simp [hi, tableRow])⟩⟩
  | accepts op _ _ _ hid => exact .inl ⟨rfl, .inr ⟨rfl, op, rfl, hid⟩⟩
  | lights => exact .inr ⟨⟨_, rfl⟩, rfl, .inr rfl⟩
  | strict => exact .inr ⟨⟨_, by simp [raise_eq]; rfl⟩, by simp [raise_eq], by simp [raise_eq]⟩

end Decided

/-! ## Rules over all steps -/

/-- Settles O47: one case per effect of a step. -/
theorem oneEventPerStep : Obligations.OneEventPerStep := by
  intro s t h hr
  cases step_effect h with
  | resets hreset => simp [hr] at hreset
  | waits | ticks => exact ⟨.inl rfl, .inl rfl⟩
  | goesOn _ hb => exact ⟨.inr ⟨hb, _, rfl⟩, .inl rfl⟩
  | ends _ hb | aborts _ hb => exact ⟨.inr ⟨hb, _, rfl⟩, .inr ⟨_, rfl⟩⟩
  | rejects => exact ⟨.inl rfl, .inr ⟨_, rfl⟩⟩
  | decides _ hb q rest _ i _ t ht =>
    refine ⟨.inl ht.trace_eq, ?_⟩
    rcases ht.responses_cases hb with ⟨-, h⟩ | ⟨-, h⟩
    · exact .inl h
    · exact .inr h

/-- Settles O48: one case per effect of a step; a decided request makes the block busy or gives a response. -/
theorem oneResponsePerRequest : Obligations.OneResponsePerRequest := by
  intro s t inv h hr
  cases step_effect h with
  | resets hreset => simp [hr] at hreset
  | waits _ hidle =>
    exact ⟨fun _ => rfl, fun hb hb' => absurd (hb.symm.trans hb') (by decide), fun hb _ hp => absurd (hidle hb) hp,
      fun _ _ => rfl⟩
  | ticks _ hb | goesOn _ hb => simp [hb]
  | ends _ hb | aborts _ hb => simp [hb]
  | rejects _ hb q rest hp => simp [hb, hp]
  | decides _ hb q rest hp i _ t ht =>
    rcases ht.responses_cases hb with ⟨hb', h⟩ | ⟨hb', h⟩ <;> simp_all

/-- The last event of `INIT` is a delay. -/
theorem initEvents_suffix_singleton {c : Config} {p : Pending} (h : [p] <:+ initEvents c) :
    p = .delay c.tInit.t7 := by
  have hlast := h.getLast (List.cons_ne_nil _ _)
  simpa [initEvents] using hlast

/-- The changes of the lifecycle without reset: `INIT` accepted, its last delay over, or one of its writes failed. -/
theorem step_life_cases {s t : State} (inv : StateInv s) (h : step s = .next t) (hr : s.resetAsserted = false) :
    t.life = s.life ∨
    (s.life = .uninit ∧ t.life = .initializing ∧ t.running = some .init) ∨
    (s.life = .initializing ∧ t.life = .ready ∧
      ∃ n k, s.seq = some ⟨.init, [.delay n], k⟩ ∧ t.trace = s.trace ++ [.D n]) ∨
    (s.life = .initializing ∧ t.life = .failed ∧
      ∃ v todo k, s.seq = some ⟨.init, .write v :: todo, k⟩ ∧ t.trace = s.trace ++ [.F (s.issued v)]) := by
  cases step_effect h with
  | resets hreset => simp [hr] at hreset
  | waits | ticks | goesOn | rejects => exact .inl rfl
  | ends _ _ op p k e rest hseq he =>
    by_cases hop : op = .init
    · subst hop
      obtain ⟨-, hsuffix, -⟩ := inv.position _ hseq
      obtain rfl := initEvents_suffix_singleton hsuffix
      obtain rfl : .D s.cfg.tInit.t7 = e := by simpa [performed] using he
      exact .inr (.inr (.inl ⟨inv.life_of_seq hseq, rfl, _, k, hseq, rfl⟩))
    · exact .inl (if_neg hop)
  | aborts _ _ op v todo k rest hseq =>
    by_cases hop : op = .init
    · subst hop
      exact .inr (.inr (.inr ⟨inv.life_of_seq hseq, rfl, v, todo, k, hseq, rfl⟩))
    · exact .inl (if_neg hop)
  | decides _ _ q rest _ i _ t ht =>
    rcases ht.life_cases with hsame | ⟨-, hl, hl', hrun⟩
    · exact .inl hsame
    · exact .inr (.inl ⟨hl, hl', hrun⟩)

/-- Settles O49: each change of the lifecycle starts in one state, so it is no change of another. -/
theorem lifecycleTransitions : Obligations.LifecycleTransitions := by
  intro s t inv h
  refine ⟨fun hr => by rw [(step_move h).eq_takeReset hr, takeReset_life], fun hr => ?_⟩
  rcases step_life_cases inv h hr with hsame | ⟨hl, hl', hrun⟩ | ⟨hl, hl', hlast⟩ | ⟨hl, hl', hfail⟩
  · exact ⟨fun hl => .inl (hsame.trans hl), fun hl => .inl (hsame.trans hl), hsame.trans, hsame.trans⟩
  · simp [hl, hl', hrun]
  · simpa [hl, hl'] using hlast
  · simpa [hl, hl', State.issued] using hfail

/-- Settles O50: a failed block is idle, and of what it can decide it refuses. -/
theorem failedBlockRefusesUntilReset : Obligations.FailedBlockRefusesUntilReset := by
  intro s t inv hl hr h
  have hb := inv.failed_is_idle hl
  have hseq := inv.seq_eq_none hb
  cases step_effect h with
  | resets hreset => simp [hr] at hreset
  | waits => exact ⟨rfl, hseq, rfl, .inl rfl⟩
  | ticks _ hbusy | goesOn _ hbusy | ends _ hbusy | aborts _ hbusy => simp [hb] at hbusy
  | rejects => exact ⟨rfl, hseq, rfl, .inr ⟨_, rfl⟩⟩
  | decides _ _ q rest hp i hq t ht =>
    cases ht with
    | waits hbusy => simp [hb] at hbusy
    | refuses r => exact ⟨rfl, hseq, rfl, .inr ⟨r, rfl⟩⟩
    | starts _ _ hl' => simp [hl] at hl'
    | accepts _ _ _ _ _ hready | lights _ _ hready | strict _ _ _ _ _ hready => simp [State.Ready, hl] at hready

/-- Settles O51: a failed write and a strict `LDGLYPH` record a fault, and only where none is recorded. -/
theorem firstFaultSticks : Obligations.FirstFaultSticks := by
  intro s t h hr
  cases step_effect h with
  | resets hreset => simp [hr] at hreset
  | waits | ticks | goesOn | ends | rejects =>
    exact ⟨fun _ => ⟨rfl, rfl⟩, fun hnone hsome => absurd hnone hsome⟩
  | aborts _ _ op =>
    refine ⟨fun hf => by simp [hf], fun hf _ => ⟨_, rfl, ?_⟩⟩
    by_cases hop : op = .init <;> simp [hf, hop, ErrorKind.faultCode]
  | decides _ _ q rest hp i hq t ht =>
    rcases ht.fault_cases with ⟨hf, hbyte⟩ | ⟨slot, g, -, -, -, -, hnone, hf, -, hresp⟩
    · exact ⟨fun _ => ⟨hf, hbyte⟩, fun hnone hsome => absurd (hf.trans hnone) hsome⟩
    · exact ⟨fun hsome => absurd hnone hsome, fun _ _ => ⟨.invalidSlot, hresp, hf⟩⟩

/-- Settles O52: of the effects of a step only a decided request can change the backlight. -/
theorem backlightAndConfigurationWriters : Obligations.BacklightAndConfigurationWriters := by
  intro s t h
  cases step_effect h with
  | resets hreset => exact ⟨rfl, fun _ hr => by simp [hreset] at hr⟩
  | waits | ticks | goesOn | ends | aborts | rejects => exact ⟨rfl, fun hbl => absurd rfl hbl⟩
  | decides _ hb q rest hp i hq t ht =>
    refine ⟨ht.cfg_eq, fun hbl _ => ?_⟩
    obtain ⟨on, rfl, hon, -, hl⟩ := ht.bl_cases.resolve_left hbl
    exact ⟨hb, hl, q, rest, on, hp, hq, hon⟩

theorem seqPc_of_seq {s : State} {q : SeqState} (hseq : s.seq = some q) :
    s.seqPc = some ((eventsOf s.cfg q.op).length - q.todo.length) := by
  simp [State.seqPc, hseq]

/-- The position is an index into the events of the operation. -/
theorem StateInv.seqPc_lt {s : State} (inv : StateInv s) {n : Nat} {q : SeqState} (hn : s.seqPc = some n)
    (hseq : s.seq = some q) : n < (eventsOf s.cfg q.op).length := by
  obtain ⟨hne, hsuffix, -⟩ := inv.position q hseq
  have hlen := hsuffix.length_le
  have hpos := List.length_pos_of_ne_nil hne
  rw [seqPc_of_seq hseq, Option.some.injEq] at hn
  omega

/-- Settles O53: one case per effect of a step, and for the bound the invariant of the next state. -/
theorem sequencerPosition : Obligations.SequencerPosition := by
  intro s t inv h hr
  have inv' := stepKeepsInvariant s t inv h
  refine ⟨fun hb hb' => ?_, fun hb hb' => ?_, fun n q => inv'.seqPc_lt⟩
  · cases step_effect h with
    | resets hreset => simp [hr] at hreset
    | waits =>
      obtain ⟨op, p, todo, t, hseq⟩ := inv.exists_seq hb
      exact ⟨_, seqPc_of_seq hseq, .inl ⟨rfl, seqPc_of_seq hseq⟩⟩
    | ticks _ _ op n m t todo rest hseq => exact ⟨_, seqPc_of_seq hseq, .inl ⟨rfl, rfl⟩⟩
    | goesOn _ _ op p p' todo t e rest hseq =>
      obtain ⟨-, hsuffix, -⟩ := inv.position _ hseq
      have hlen := hsuffix.length_le
      refine ⟨_, seqPc_of_seq hseq, .inr ⟨e, rfl, (seqPc_of_seq rfl).trans (congrArg some ?_)⟩⟩
      simp only [List.length_cons] at hlen ⊢
      omega
    | ends | aborts => simp at hb'
    | decides _ hidle | rejects _ hidle => simp [hb] at hidle
  · cases step_effect h with
    | resets hreset => simp [hr] at hreset
    | waits | rejects => simp [hb] at hb'
    | ticks _ hbusy | goesOn _ hbusy | ends _ hbusy | aborts _ hbusy => simp [hb] at hbusy
    | decides _ _ q rest hp i hq t ht => exact ht.seqPc_eq_zero hb hb'

/-! ## The port of a busy block (R67) -/

/-- The state with other requests at the port. -/
def State.withPort (s : State) (port : List Request) : State := { s with port := port }

theorem finish_withPort (s : State) (other : List Request) : finish (s.withPort other) = (finish s).withPort other := by
  rw [finish_eq, finish_eq]
  rfl

theorem advance_withPort (s : State) (other : List Request) :
    advance (s.withPort other) = (advance s).withPort other := by
  obtain ⟨life, bl, fault, faultByte, busy, seq, trace, responses, port, inputs, cfg⟩ := s
  rcases seq with _ | ⟨op, _ | ⟨p, _ | ⟨p', rest⟩⟩, t⟩
  · rfl
  · exact finish_withPort _ other
  · exact finish_withPort _ other
  · rfl

theorem raise_withPort (k : ErrorKind) (info : Byte) (s : State) (other : List Request) :
    raise k info (s.withPort other) = (raise k info s).withPort other := by
  rw [raise_eq, raise_eq]
  rfl

theorem answered_withPort (x : Byte) (a : Answer) (s : State) (other : List Request) :
    answered x a (s.withPort other) = (answered x a s).withPort other := by
  cases a with
  | success => exact advance_withPort (record (.W x) s) other
  | failure => exact raise_withPort .transportError x (record (.F x) s) other

/-- What an operation does to the state does not depend on the port, which at most gains requests at its end. -/
def OnlyExtendsPort (f : State → State) (s : State) : Prop :=
  ∃ waiting, ∀ other, f (s.withPort other) = (f s).withPort (other ++ waiting)

theorem onlyExtendsPort_of_withPort {f : State → State} {s : State}
    (h : ∀ other, f (s.withPort other) = (f s).withPort other) : OnlyExtendsPort f s :=
  ⟨[], fun other => by rw [h, List.append_nil]⟩

theorem passInput_onlyExtendsPort (s : State) : OnlyExtendsPort passInput s := by
  cases hi : s.inputs with
  | nil => exact onlyExtendsPort_of_withPort fun other => by simp [passInput, State.withPort, hi]
  | cons x rest =>
    cases x with
    | present q => exact ⟨[q], fun other => by simp [passInput, State.withPort, hi]⟩
    | _ => exact onlyExtendsPort_of_withPort fun other => by simp [passInput, State.withPort, hi, takeReset]

theorem awaitAnswer_onlyExtendsPort (x : Byte) (s : State) : OnlyExtendsPort (awaitAnswer x) s := by
  by_cases h : ∃ a rest, s.inputs = .answer a :: rest
  · obtain ⟨a, rest, hi⟩ := h
    refine onlyExtendsPort_of_withPort fun other => ?_
    rw [awaitAnswer_answer x hi, awaitAnswer_answer (s := s.withPort other) x hi]
    exact answered_withPort x a { s with inputs := rest } other
  · have hpass : ∀ a rest, s.inputs ≠ .answer a :: rest := fun a rest hi => h ⟨a, rest, hi⟩
    obtain ⟨waiting, hport⟩ := passInput_onlyExtendsPort s
    refine ⟨waiting, fun other => ?_⟩
    rw [awaitAnswer_passes x hpass, awaitAnswer_passes (s := s.withPort other) x hpass, hport]

theorem awaitDelay_onlyExtendsPort (n : Nat) (s : State) : OnlyExtendsPort (awaitDelay n) s := by
  by_cases h : ∃ m rest, s.inputs = .elapse m :: rest
  · obtain ⟨m, rest, hi⟩ := h
    refine onlyExtendsPort_of_withPort fun other => ?_
    have helapsed : (s.withPort other).elapsed = s.elapsed := rfl
    rw [awaitDelay_elapse n hi, awaitDelay_elapse (s := s.withPort other) n hi, helapsed]
    split
    · exact advance_withPort (record (.D n) { s with inputs := rest }) other
    · rfl
  · have hpass : ∀ m rest, s.inputs ≠ .elapse m :: rest := fun m rest hi => h ⟨m, rest, hi⟩
    obtain ⟨waiting, hport⟩ := passInput_onlyExtendsPort s
    refine ⟨waiting, fun other => ?_⟩
    rw [awaitDelay_passes n hpass, awaitDelay_passes (s := s.withPort other) n hpass, hport]

/-- A step that only extends the port, whatever waits there, steps alike under other requests. -/
theorem step_withPort {f : State → State} {s t : State} (hf : OnlyExtendsPort f s)
    (hstep : ∀ other, step (s.withPort other) = .next (f (s.withPort other))) (h : step s = .next t)
    (other : List Request) :
    ∃ waiting, t.port = s.port ++ waiting ∧ step (s.withPort other) = .next (t.withPort (other ++ waiting)) := by
  obtain ⟨waiting, hport⟩ := hf
  obtain rfl : t = f s := Host.Outcome.next.inj (h.symm.trans (hstep s.port))
  exact ⟨waiting, congrArg State.port (hport s.port), by rw [hstep, hport]⟩

/-- Settles O54: reset, the answer to a write and the time of a delay leave the port; an input that passes may join
it. -/
theorem portDoesNotReachOperation : Obligations.PortDoesNotReachOperation := by
  intro s t other hb h
  cases hr : s.resetAsserted with
  | true => exact step_withPort (onlyExtendsPort_of_withPort fun _ => rfl) (fun _ => step_reset hr) h other
  | false =>
    cases hp : s.outstanding with
    | none =>
      rw [step_busy hr hb, performNext, hp] at h
      cases h
    | some p =>
      cases p with
      | write v =>
        exact step_withPort (awaitAnswer_onlyExtendsPort (s.issued v) s) (fun _ => step_write hr hb hp) h other
      | delay n => exact step_withPort (awaitDelay_onlyExtendsPort n s) (fun _ => step_delay hr hb hp) h other

/-! ## Frames -/

/-- Settles O55: field by field, from what deciding an instruction can do. -/
theorem requestFrame : Obligations.RequestFrame := by
  intro i s t hx h
  have hdec := exec_decided hx h
  refine ⟨hdec.trace_eq, hdec.port_eq, hdec.inputs_eq, hdec.cfg_eq, hdec.bl_cases, ?_, ?_, hdec.sequencer_cases⟩
  · rcases hdec.fault_cases with hsame | ⟨slot, g, hi, hr, hs, hslot, hf, hf', hbyte, -⟩
    · exact .inl hsame
    · exact .inr ⟨slot, g, hi, hr, hs, hslot, hf, hf', hbyte⟩
  · rcases hdec.life_cases with hsame | ⟨hi, hl, hl', -⟩
    · exact .inl hsame
    · exact .inr ⟨hi, hl, hl'⟩

/-- The trace event of a write is the `W` of the byte issued. -/
theorem performed_write_eq {s : State} {p : Pending} {v : Byte} {e : Event} (hp : p = .write v)
    (he : performed s.cfg s.bl [p] = [e]) : e = .W (s.issued v) := by
  subst hp
  exact (List.singleton_inj.mp he).symm

/-- Settles O56: XACT is the step of a block at a write, which waits, goes on, ends or aborts. -/
theorem transactionFrame : Obligations.TransactionFrame := by
  intro data bl en rs s t hr h
  obtain ⟨v, hb, hv, hx⟩ : ∃ v, s.busy = true ∧ s.outstanding = some (.write v) ∧
      s.issued v = transactionByte s.cfg data bl en rs := by
    rw [exec, execXact] at h
    split_ifs at h with hbyte
    unfold State.byteOnTransport at hbyte
    split at hbyte
    · next hb hv => exact ⟨_, hb, hv, Option.some.inj hbyte⟩
    · cases hbyte
  rw [← step_eq_exec_xact hb hr hv hx] at h
  rw [← hx]
  cases step_effect h with
  | resets hreset => simp [hr] at hreset
  | waits _ _ waiting rest hw =>
    refine ⟨rfl, rfl, ?_, .inl rfl, .inl ⟨rfl, rfl⟩, .inl rfl⟩
    rcases hw with rfl | ⟨q, hi, rfl⟩
    · exact .inl (List.append_nil _)
    · exact .inr ⟨q, rest, hi, rfl⟩
  | ticks => exact ⟨rfl, rfl, .inl rfl, .inl rfl, .inl ⟨rfl, rfl⟩, .inl rfl⟩
  | goesOn _ _ op p p' todo k e rest hseq he =>
    obtain rfl : p = .write v := Option.some.inj ((outstanding_of_seq hseq).symm.trans hv)
    exact ⟨rfl, rfl, .inl rfl, .inl rfl, .inl ⟨rfl, rfl⟩, .inr (.inl (by rw [performed_write_eq rfl he]))⟩
  | ends _ _ op p k e rest hseq he =>
    obtain rfl : p = .write v := Option.some.inj ((outstanding_of_seq hseq).symm.trans hv)
    refine ⟨rfl, rfl, .inl rfl, ?_, .inl ⟨rfl, rfl⟩, .inr (.inl (by rw [performed_write_eq rfl he]))⟩
    by_cases hop : op = .init
    · exact .inr (hop ▸ running_of_seq hseq)
    · exact .inl (if_neg hop)
  | aborts _ _ op w todo k rest hseq =>
    obtain rfl : w = v := by simpa using (outstanding_of_seq hseq).symm.trans hv
    refine ⟨rfl, rfl, .inl rfl, ?_, ?_, .inr (.inr rfl)⟩
    · by_cases hop : op = .init
      · exact .inr (hop ▸ running_of_seq hseq)
      · exact .inl (if_neg hop)
    · by_cases hf : s.fault = .none
      · by_cases hop : op = .init <;> simp [hf, hop]
      · exact .inl ⟨if_neg hf, if_neg hf⟩
  | decides _ hidle | rejects _ hidle => simp [hb] at hidle

end Sys2Proof.Machine
end

section
/-! Proofs of the statements on traces and sizes: the events of the micro-operations, the number of writes and the waits
of each operation (45_display_ops.md R230), and the worked example of `INIT`. -/

namespace Sys2Proof.Machine

/-- The trace of a strobe of a transaction value (42_nibble_strobe.md R160). -/
theorem performed_strobe {c : Config} (hc : c.wf = true) (bl : Bool) (n : Nibble) (rs : Bool) :
    performed c bl (strobe c (xactValue c n rs)) =
      [.W (xactValue c n rs ||| c.enMask ||| blv c bl), .D 5, .W (xactValue c n rs ||| blv c bl), .D 1] := by
  simp only [strobe, performed, xactValue_and_not_enable hc, tEnHigh, tEnLow]

/-- Settles O10: each nibble is one strobe. -/
theorem microOperationTraces : Obligations.MicroOperationTraces := by
  intro c bl rs b n hc
  refine ⟨?_, performed_strobe hc bl n false, rfl, rfl⟩
  rw [sendByte, performed_append, encodeByte, performed_strobe hc, performed_strobe hc]
  rfl

/-- Settles O15: the events of `INIT` evaluated in the default configuration. -/
theorem initTraceInDefaultConfiguration : Obligations.InitTraceInDefaultConfiguration := by
  unfold Obligations.InitTraceInDefaultConfiguration
  decide

/-! ## Sizes of operations (R230) -/

/-- The events make `writes` writes and wait `units` units. -/
def HasSize (c : Config) (bl : Bool) (events : List Pending) (writes units : Nat) : Prop :=
  (writesOf (performed c bl events)).length = writes ∧ waitSum (performed c bl events) = units

section
variable {c : Config} {bl : Bool}

theorem HasSize.append {xs ys : List Pending} {n m u v : Nat} (hx : HasSize c bl xs n u) (hy : HasSize c bl ys m v) :
    HasSize c bl (xs ++ ys) (n + m) (u + v) := by
  obtain ⟨hn, hu⟩ := hx
  obtain ⟨hm, hv⟩ := hy
  rw [HasSize, performed_append, writesOf_append, List.length_append, waitSum_append, hn, hm, hu, hv]
  exact ⟨rfl, rfl⟩

theorem hasSize_sendByte (b : Byte) (rs : Bool) : HasSize c bl (sendByte c b rs) 4 12 := ⟨rfl, rfl⟩

theorem hasSize_delay (n : Nat) : HasSize c bl [.delay n] 0 n := ⟨rfl, rfl⟩

theorem hasSize_sendData (bytes : List Byte) :
    HasSize c bl (sendData c bytes) (4 * bytes.length) (12 * bytes.length) := by
  induction bytes with
  | nil => exact ⟨rfl, rfl⟩
  | cons b rest ih =>
    have h := (hasSize_sendByte b true).append ih
    rw [List.length_cons, Nat.mul_succ, Nat.mul_succ, Nat.add_comm _ 4, Nat.add_comm _ 12]
    exact h

/-- A command byte and data bytes behind it. -/
theorem hasSize_sendByte_sendData (b : Byte) (bytes : List Byte) :
    HasSize c bl (sendByte c b false ++ sendData c bytes) (4 + 4 * bytes.length) (12 + 12 * bytes.length) :=
  (hasSize_sendByte b false).append (hasSize_sendData bytes)

theorem hasSize_ldglyphs (gs : List Glyph) :
    HasSize c bl (eventsOf c (.ldglyphs gs)) (4 + 32 * gs.length) (12 + 96 * gs.length) := by
  have h := hasSize_sendByte_sendData (c := c) (bl := bl) (setCgramCommand c 0x00) (gs.flatMap Glyph.rows)
  rwa [rows_length, ← Nat.mul_assoc, ← Nat.mul_assoc] at h

theorem hasSize_initEvents : HasSize c bl (initEvents c) 24 (72 + (c.tInit.t0 + c.tInit.t1 + c.tInit.t2 + c.tInit.t3 +
    c.tInit.t4 + c.tInit.t5 + c.tInit.t6 + c.tInit.t7)) := by
  have nibble := fun n t => (show HasSize c bl (nib c n) 2 6 from ⟨rfl, rfl⟩).append (hasSize_delay t)
  have byte := fun b t => (hasSize_sendByte (c := c) (bl := bl) b false).append (hasSize_delay t)
  obtain ⟨hwrites, hunits⟩ := (nibble 0x3 c.tInit.t0).append (nibble 0x3 c.tInit.t1)
    |>.append (nibble 0x3 c.tInit.t2) |>.append (nibble 0x2 c.tInit.t3) |>.append (byte c.cmdFunctionInit c.tInit.t4)
    |>.append (byte c.cmdDisplayInit c.tInit.t5) |>.append (byte c.cmdClear c.tInit.t6)
    |>.append (byte c.cmdEntryInit c.tInit.t7)
  refine ⟨hwrites, hunits.trans ?_⟩
  omega

end

/-- Settles O14: the sizes of bytes and data add up. -/
theorem operationSizes : Obligations.OperationSizes := by
  intro c bl byte line col slot text g gs
  refine ⟨fun i n w hmem => ?_, hasSize_initEvents⟩
  simp only [List.mem_cons, Prod.mk.injEq, List.not_mem_nil, or_false] at hmem
  have hbyte : ∀ b rs, HasSize c bl (sendByte c b rs) 4 12 := hasSize_sendByte
  rcases hmem with ⟨rfl, rfl, rfl⟩ | ⟨rfl, rfl, rfl⟩ | ⟨rfl, rfl, rfl⟩ | ⟨rfl, rfl, rfl⟩ | ⟨rfl, rfl, rfl⟩ |
    ⟨rfl, rfl, rfl⟩ | ⟨rfl, rfl, rfl⟩ | ⟨rfl, rfl, rfl⟩ | ⟨rfl, rfl, rfl⟩ | ⟨rfl, rfl, rfl⟩
  · exact hbyte _ _
  · exact hbyte _ _
  · exact (hbyte _ _).append (hbyte _ _)
  · exact ⟨rfl, rfl⟩
  · exact hbyte _ _
  · exact hbyte _ _
  · exact hbyte _ _
  · exact hasSize_sendByte_sendData _ text
  · exact hasSize_sendByte_sendData _ g.rows
  · exact hasSize_ldglyphs gs

end Sys2Proof.Machine
end

section
/-! Proofs of the statements on the reference observer (95_test_vectors.md section 1): what it executes of a byte sent,
how the preamble synchronises it, and where the bytes of a string or of bitmaps come to stand. -/

namespace Sys2Proof.Machine

/-! ## Latching a nibble and executing a byte -/

/-- The observer with other lines and another latch. -/
def Observer.withLatch (o : Observer) (lines : Byte) (half : Option (Nibble × Bool)) : Observer :=
  { o with lines := lines, half := half }

section
variable {o : Observer} {n : Nibble} {rs : Bool}

theorem latch_eight (hm : o.mode8 = true) : o.latch n rs = o.execute (n ++ 0#4) rs := by
  rw [Observer.latch, if_pos hm]

theorem latch_high (hm : o.mode8 = false) (hh : o.half = none) :
    o.latch n rs = o.withLatch o.lines (some (n, rs)) := by
  simp [Observer.latch, Observer.withLatch, hm, hh]

theorem latch_low {hi : Nibble} {r : Bool} (hm : o.mode8 = false) (hh : o.half = some (hi, r)) :
    o.latch n rs = (o.execute (hi ++ n) rs).withLatch (o.execute (hi ++ n) rs).lines none := by
  simp [Observer.latch, Observer.withLatch, hm, hh]

theorem store_lines_bytes (o : Observer) (b : Byte) : (o.store b).lines = o.lines ∧ (o.store b).bytes = o.bytes := by
  unfold Observer.store
  split <;> exact ⟨rfl, rfl⟩

theorem command_lines_bytes (o : Observer) (b : Byte) :
    (o.command b).lines = o.lines ∧ (o.command b).bytes = o.bytes := by
  unfold Observer.command
  split
  case h_4 => split <;> exact ⟨rfl, rfl⟩
  all_goals exact ⟨rfl, rfl⟩

/-- Executing a byte keeps the lines and adds the byte to the log. -/
theorem execute_lines_bytes (o : Observer) (b : Byte) (rs : Bool) :
    (o.execute b rs).lines = o.lines ∧ (o.execute b rs).bytes = o.bytes ++ [(rs, b)] := by
  cases rs with
  | true => exact store_lines_bytes _ b
  | false => exact command_lines_bytes _ b

theorem store_withLatch (o : Observer) (b x y : Byte) (half : Option (Nibble × Bool)) :
    ((o.withLatch x half).store b).withLatch y none = (o.store b).withLatch y none := by
  obtain ⟨lines, mode8, latched, ac, inCg, dd, cg, shift, displayFlags, entryFlags, bytes⟩ := o
  cases inCg <;> rfl

theorem command_withLatch (o : Observer) (b x y : Byte) (half : Option (Nibble × Bool)) :
    ((o.withLatch x half).command b).withLatch y none = (o.command b).withLatch y none := by
  unfold Observer.command
  cases decodeCommand b with
  | error => rfl
  | ok i =>
    cases i with
    | cursorOrDisplayShift sc => cases sc <;> rfl
    | _ => rfl

/-- Executing a byte does not depend on the lines, nor, but for the latch itself, on what is latched. -/
theorem execute_withLatch (o : Observer) (b : Byte) (rs : Bool) (x y : Byte) (half : Option (Nibble × Bool)) :
    ((o.withLatch x half).execute b rs).withLatch y none = (o.execute b rs).withLatch y none := by
  cases rs with
  | true => exact store_withLatch { o with bytes := o.bytes ++ [(true, b)] } b x y half
  | false => exact command_withLatch { o with bytes := o.bytes ++ [(false, b)] } b x y half

end

/-! ## A strobe and a byte at the observer -/

theorem observeAll_append (c : Config) (o : Observer) (xs ys : List Event) :
    observeAll c o (xs ++ ys) = observeAll c (observeAll c o xs) ys :=
  List.foldl_append

section
variable {c : Config} {o : Observer} {bl : Bool}

/-- A strobe latches its nibble with its register-select line, and leaves the enable line low. -/
theorem observeAll_strobe (hc : c.wf = true) (o : Observer) (n : Nibble) (rs bl : Bool) :
    observeAll c o (performed c bl (strobe c (xactValue c n rs))) =
      (o.withLatch (transactionByte c n bl false rs) o.half).latch n rs := by
  obtain ⟨hdata, -, hen, hrs, -⟩ := fields_transactionByte hc n bl true rs
  obtain ⟨-, -, hen', -⟩ := fields_transactionByte hc n bl false rs
  rw [performed_strobe hc, xactValue_enableHigh, xactValue_enableLow]
  simp [observeAll, observe, hdata, hen, hrs, hen', Observer.withLatch]

/-- At a high half a strobe leaves its nibble latched. -/
theorem observeAll_strobe_high (hc : c.wf = true) (hm : o.mode8 = false) (hh : o.half = none) (n : Nibble) (rs : Bool) :
    observeAll c o (performed c bl (strobe c (xactValue c n rs))) =
      o.withLatch (transactionByte c n bl false rs) (some (n, rs)) := by
  rw [observeAll_strobe hc, latch_high (o := o.withLatch (transactionByte c n bl false rs) o.half) hm hh]
  rfl

/-- At a low half a strobe executes the byte of both halves. -/
theorem observeAll_strobe_low (hc : c.wf = true) {hi : Nibble} {r : Bool} (hm : o.mode8 = false)
    (hh : o.half = some (hi, r)) (n : Nibble) (rs : Bool) :
    observeAll c o (performed c bl (strobe c (xactValue c n rs))) =
      (o.execute (hi ++ n) rs).withLatch (transactionByte c n bl false rs) none := by
  rw [observeAll_strobe hc, latch_low (o := o.withLatch (transactionByte c n bl false rs) o.half) hm hh,
    (execute_lines_bytes _ _ _).1, execute_withLatch]
  rfl

/-- A byte sent to a synchronised observer is executed (S1). -/
theorem observeAll_sendByte (hc : c.wf = true) (hm : o.mode8 = false) (hh : o.half = none) (b : Byte) (rs : Bool) :
    observeAll c o (performed c bl (sendByte c b rs)) =
      (o.execute b rs).withLatch (transactionByte c (loNibble b) bl false rs) none := by
  rw [sendByte, performed_append, observeAll_append, encodeByte, observeAll_strobe_high hc hm hh,
    observeAll_strobe_low hc (o := o.withLatch _ (some (hiNibble b, rs))) hm rfl, hiNibble_append_loNibble,
    execute_withLatch]

end

/-- Settles O57: two strobes execute one byte. -/
theorem observerExecutesSentByte : Obligations.ObserverExecutesSentByte := by
  intro c o b rs bl hc hm hh
  rw [observeAll_sendByte hc hm hh]
  exact ⟨_, rfl, (execute_lines_bytes o b rs).2⟩

/-! ## The preamble (40_init_sequencer.md R121, S6) -/

theorem execute_functionSet {b : Byte} {dl n f : Bool} {x : BitVec 2}
    (h : decodeCommand b = .ok (.functionSet dl n f x)) (o : Observer) :
    o.execute b false = { o with bytes := o.bytes ++ [(false, b)], mode8 := dl, half := none } := by
  simp [Observer.execute, Observer.command, h]

section
variable {c : Config} {o : Observer} {bl : Bool}

/-- In 8-bit mode a raw nibble is executed as the high half of a byte. -/
theorem observeAll_nib_eight (hc : c.wf = true) (hm : o.mode8 = true) (n : Nibble) :
    observeAll c o (performed c bl (nib c n)) =
      (o.withLatch (transactionByte c n bl false false) o.half).execute (n ++ 0#4) false := by
  rw [nib, observeAll_strobe hc, latch_eight (o := o.withLatch (transactionByte c n bl false false) o.half) hm]

/-- In 8-bit mode the nibble 0x3 keeps the mode. -/
theorem nib_three_of_eight (hc : c.wf = true) (hm : o.mode8 = true) :
    (observeAll c o (performed c bl (nib c 0x3))).mode8 = true := by
  rw [observeAll_nib_eight hc hm, execute_functionSet (b := (0x3 : Nibble) ++ 0#4) rfl]
  rfl

/-- In 8-bit mode the nibble 0x2 selects 4-bit mode, at a high half. -/
theorem nib_two_of_eight (hc : c.wf = true) (hm : o.mode8 = true) :
    (observeAll c o (performed c bl (nib c 0x2))).mode8 = false ∧
      (observeAll c o (performed c bl (nib c 0x2))).half = none := by
  rw [observeAll_nib_eight hc hm, execute_functionSet (b := (0x2 : Nibble) ++ 0#4) rfl]
  exact ⟨rfl, rfl⟩

/-- At a low half whose high half is 0x3 the nibble 0x3 makes up 0x33, which selects 8-bit mode. -/
theorem nib_three_of_half_three {r : Bool} (hc : c.wf = true) (hm : o.mode8 = false) (hh : o.half = some (0x3, r)) :
    (observeAll c o (performed c bl (nib c 0x3))).mode8 = true := by
  rw [nib, observeAll_strobe_low hc hm hh, execute_functionSet (b := (0x3 : Nibble) ++ (0x3 : Nibble)) rfl]
  rfl

/-- At a high half two nibbles 0x3 select 8-bit mode. -/
theorem nib_three_twice_of_none (hc : c.wf = true) (hm : o.mode8 = false) (hh : o.half = none) :
    (observeAll c (observeAll c o (performed c bl (nib c 0x3))) (performed c bl (nib c 0x3))).mode8 = true := by
  have hlatched := observeAll_strobe_high (bl := bl) hc hm hh 0x3 false
  rw [← nib] at hlatched
  rw [hlatched]
  exact nib_three_of_half_three hc (o := o.withLatch _ _) hm rfl

/-- Whatever the mode and the phase, three nibbles 0x3 select 8-bit mode. -/
theorem nib_three_thrice (hc : c.wf = true) (o : Observer) :
    (observeAll c (observeAll c (observeAll c o (performed c bl (nib c 0x3))) (performed c bl (nib c 0x3)))
      (performed c bl (nib c 0x3))).mode8 = true := by
  cases hm : o.mode8 with
  | true => exact nib_three_of_eight hc (nib_three_of_eight hc (nib_three_of_eight hc hm))
  | false =>
    cases hh : o.half with
    | none => exact nib_three_of_eight hc (nib_three_twice_of_none hc hm hh)
    | some latched =>
      have hhalf : (observeAll c o (performed c bl (nib c 0x3))).half = none := by
        rw [nib, observeAll_strobe_low hc hm hh]
        rfl
      cases hm' : (observeAll c o (performed c bl (nib c 0x3))).mode8 with
      | true => exact nib_three_of_eight hc (nib_three_of_eight hc hm')
      | false => exact nib_three_twice_of_none hc hm' hhalf

end

/-- Settles O58: three nibbles 0x3 select 8-bit mode from any state, the nibble 0x2 then 4-bit mode. -/
theorem preambleSynchronisesObserver : Obligations.PreambleSynchronisesObserver := by
  intro c o bl hc
  simp only [performed_append, observeAll_append]
  exact nib_two_of_eight hc (nib_three_thrice hc o)

/-! ## Scrolls (S5) -/

/-- What S5 speaks of: the address, the memories, the shift and that the observer is synchronised. -/
def ShiftedBy (d : Int) (o o' : Observer) : Prop :=
  o'.ac = o.ac ∧ o'.inCg = o.inCg ∧ o'.dd = o.dd ∧ o'.cg = o.cg ∧ o'.shift = o.shift + d ∧ o'.mode8 = false ∧
    o'.half = none

theorem execute_displayShift {b : Byte} {rl : Bool} {x : BitVec 2}
    (h : decodeCommand b = .ok (.cursorOrDisplayShift true rl x)) (o : Observer) :
    o.execute b false =
      { o with bytes := o.bytes ++ [(false, b)], shift := if rl then o.shift - 1 else o.shift + 1 } := by
  simp [Observer.execute, Observer.command, h]

theorem shiftedBy_sendByte {c : Config} (hc : c.wf = true) {o : Observer} (hm : o.mode8 = false) (hh : o.half = none)
    (bl : Bool) {b : Byte} {rl : Bool} {x : BitVec 2} (h : decodeCommand b = .ok (.cursorOrDisplayShift true rl x)) :
    ShiftedBy (if rl then -1 else 1) o (observeAll c o (performed c bl (sendByte c b false))) := by
  rw [observeAll_sendByte hc hm hh, execute_displayShift h]
  cases rl <;> exact ⟨rfl, rfl, rfl, rfl, rfl, hm, rfl⟩

/-- Settles O59: one scroll shifts by 1 and the other by -1. -/
theorem scrollsCancel : Obligations.ScrollsCancel := by
  intro o bl hm hh
  have hc : Config.default.wf = true := by decide
  obtain ⟨hac, hcg, hdd, hcgram, hshift, hm', hh'⟩ :=
    shiftedBy_sendByte hc hm hh bl (b := Config.default.cmdShiftLeft) (rl := false) (x := 0) rfl
  obtain ⟨hac', hcg', hdd', hcgram', hshift', hm'', hh''⟩ :=
    shiftedBy_sendByte hc hm' hh' bl (b := Config.default.cmdShiftRight) (rl := true) (x := 0) rfl
  simp only [performed_append, observeAll_append, eventsOf]
  refine ⟨hac'.trans hac, hcg'.trans hcg, hdd'.trans hdd, hcgram'.trans hcgram, ?_, hm'', hh''⟩
  rw [hshift', hshift]
  simp

/-! ## Bytes written to rising addresses -/

/-- Bytes written to a memory of `size` addresses, from address `a` on, wrapping around. -/
def Memory.fill (dflt : Option Byte) (size : Nat) : Memory → Nat → List Byte → Memory
  | m, _, [] => m
  | m, a, b :: rest => Memory.fill dflt size (Memory.write dflt m (a % size) b) (a + 1) rest

section
variable {dflt : Option Byte} {size : Nat}

theorem Memory.read_fill_other {m : Memory} {a x : Nat} {bytes : List Byte} (hm : Memory.wf dflt m = true)
    (hx : ∀ j < bytes.length, (a + j) % size ≠ x) :
    Memory.read dflt (Memory.fill dflt size m a bytes) x = Memory.read dflt m x := by
  induction bytes generalizing m a with
  | nil => rfl
  | cons b rest ih =>
    have hhere : x ≠ a % size := (hx 0 (Nat.succ_pos _)).symm
    have hrest : ∀ j < rest.length, (a + 1 + j) % size ≠ x := fun j hj => by
      have h := hx (j + 1) (Nat.succ_lt_succ hj)
      rwa [← Nat.add_assoc, Nat.add_right_comm] at h
    rw [Memory.fill, ih (Memory.wf_write _ _ hm) hrest, Memory.read_write_other b hhere hm]

/-- The last byte written to an address stands there. -/
theorem Memory.read_fill {m : Memory} {a k : Nat} {bytes : List Byte} (hm : Memory.wf dflt m = true)
    (hk : k < bytes.length) (hlast : bytes.length ≤ k + size) :
    Memory.read dflt (Memory.fill dflt size m a bytes) ((a + k) % size) = some bytes[k] := by
  induction bytes generalizing m a k with
  | nil => cases hk
  | cons b rest ih =>
    rw [List.length_cons] at hk hlast
    cases k with
    | zero =>
      have hother : ∀ j < rest.length, (a + 1 + j) % size ≠ a % size := fun j hj heq => by
        have hmod : (a + 1 + j) ≡ a + 0 [MOD size] := heq
        rw [Nat.add_assoc] at hmod
        have hzero := Nat.ModEq.add_left_cancel' a hmod
        rw [Nat.ModEq, Nat.mod_eq_of_lt (by omega), Nat.zero_mod] at hzero
        omega
      rw [Nat.add_zero, Memory.fill, Memory.read_fill_other (Memory.wf_write (a % size) b hm) hother,
        Memory.read_write_same _ _ hm]
      rfl
    | succ k =>
      have h := ih (a := a + 1) (Memory.wf_write (a % size) b hm) (Nat.lt_of_succ_lt_succ hk) (by omega)
      rwa [Nat.add_right_comm, Nat.add_assoc] at h

end

/-! ## Strings and glyphs (S7, S3) -/

section
variable {c : Config} {o : Observer}

/-- A data byte sent while the address counter points into DDRAM. -/
theorem observeAll_sendByte_dd (hc : c.wf = true) (hm : o.mode8 = false) (hh : o.half = none) (hcg : o.inCg = false)
    (b : Byte) (bl : Bool) : ∃ lines bytes, observeAll c o (performed c bl (sendByte c b true)) =
      { o with
        lines := lines
        half := none
        bytes := bytes
        dd := Memory.write ddDefault o.dd o.ac.toNat b
        ac := o.ac + 1 } := by
  rw [observeAll_sendByte hc hm hh]
  simp only [Observer.execute, Observer.store, Observer.withLatch, hcg, Bool.false_eq_true, ↓reduceIte]
  exact ⟨_, _, rfl⟩

/-- A data byte sent while the address counter points into CGRAM. -/
theorem observeAll_sendByte_cg (hc : c.wf = true) (hm : o.mode8 = false) (hh : o.half = none) (hcg : o.inCg = true)
    (b : Byte) (bl : Bool) : ∃ lines bytes, observeAll c o (performed c bl (sendByte c b true)) =
      { o with
        lines := lines
        half := none
        bytes := bytes
        cg := Memory.write cgDefault o.cg (o.ac &&& 0x3F).toNat b
        ac := (o.ac + 1) &&& 0x3F } := by
  rw [observeAll_sendByte hc hm hh]
  simp only [Observer.execute, Observer.store, Observer.withLatch, hcg, ↓reduceIte]
  exact ⟨_, _, rfl⟩

theorem toNat_succ_ac {ac : BitVec 7} {a : Nat} (h : ac.toNat = a % 128) : (ac + 1).toNat = (a + 1) % 128 := by
  have hone : (1 : BitVec 7).toNat = 1 := rfl
  rw [BitVec.toNat_add, hone, h]
  omega

theorem toNat_and_sixtyThree (ac : BitVec 7) : (ac &&& 0x3F).toNat = ac.toNat % 64 := by
  rw [BitVec.toNat_and]
  exact Nat.and_two_pow_sub_one_eq_mod ac.toNat 6

theorem sendData_cons (c : Config) (b : Byte) (rest : List Byte) :
    sendData c (b :: rest) = sendByte c b true ++ sendData c rest := rfl

/-- The bytes of a string fill DDRAM from the address counter on. -/
theorem observeAll_sendData_dd (hc : c.wf = true) (bl : Bool) (bytes : List Byte) {a : Nat} (hm : o.mode8 = false)
    (hh : o.half = none) (hcg : o.inCg = false) (ha : o.ac.toNat = a % 128) :
    (observeAll c o (performed c bl (sendData c bytes))).dd = Memory.fill ddDefault 128 o.dd a bytes := by
  induction bytes generalizing o a with
  | nil => rfl
  | cons b rest ih =>
    obtain ⟨lines, log, hsent⟩ := observeAll_sendByte_dd hc hm hh hcg b bl
    rw [sendData_cons, performed_append, observeAll_append, hsent, Memory.fill, ← ha]
    exact ih (o := { o with
      lines := lines, half := none, bytes := log, dd := Memory.write ddDefault o.dd o.ac.toNat b, ac := o.ac + 1 })
      hm rfl hcg (toNat_succ_ac ha)

/-- The rows of bitmaps fill CGRAM from the address counter on. -/
theorem observeAll_sendData_cg (hc : c.wf = true) (bl : Bool) (bytes : List Byte) {a : Nat} (hm : o.mode8 = false)
    (hh : o.half = none) (hcg : o.inCg = true) (ha : o.ac.toNat % 64 = a % 64) :
    (observeAll c o (performed c bl (sendData c bytes))).cg = Memory.fill cgDefault 64 o.cg a bytes := by
  induction bytes generalizing o a with
  | nil => rfl
  | cons b rest ih =>
    obtain ⟨lines, log, hsent⟩ := observeAll_sendByte_cg hc hm hh hcg b bl
    have hnext : ((o.ac + 1) &&& 0x3F).toNat % 64 = (a + 1) % 64 := by
      rw [toNat_and_sixtyThree, toNat_succ_ac (Nat.mod_eq_of_lt o.ac.isLt).symm]
      omega
    rw [sendData_cons, performed_append, observeAll_append, hsent, Memory.fill, ← ha, ← toNat_and_sixtyThree]
    exact ih (o := { o with
      lines := lines, half := none, bytes := log, cg := Memory.write cgDefault o.cg (o.ac &&& 0x3F).toNat b,
      ac := (o.ac + 1) &&& 0x3F }) hm rfl hcg hnext

/-- A Set-DDRAM-Address command and a string. -/
theorem observeAll_string (hc : c.wf = true) (bl : Bool) (bytes : List Byte) {b : Byte} {a : BitVec 7}
    (hm : o.mode8 = false) (hh : o.half = none) (hb : decodeCommand b = .ok (.setDdramAddress a)) :
    (observeAll c o (performed c bl (sendByte c b false ++ sendData c bytes))).dd =
      Memory.fill ddDefault 128 o.dd a.toNat bytes := by
  have hcommand : o.execute b false = { o with bytes := o.bytes ++ [(false, b)], ac := a, inCg := false } := by
    simp [Observer.execute, Observer.command, hb]
  rw [performed_append, observeAll_append, observeAll_sendByte hc hm hh, hcommand]
  exact observeAll_sendData_dd hc bl bytes (o := Observer.withLatch _ _ _) hm rfl rfl (Nat.mod_eq_of_lt a.isLt).symm

/-- A Set-CGRAM-Address command and the rows of bitmaps. -/
theorem observeAll_glyphs (hc : c.wf = true) (bl : Bool) (bytes : List Byte) {b : Byte} {a : BitVec 6}
    (hm : o.mode8 = false) (hh : o.half = none) (hb : decodeCommand b = .ok (.setCgramAddress a)) :
    (observeAll c o (performed c bl (sendByte c b false ++ sendData c bytes))).cg =
      Memory.fill cgDefault 64 o.cg a.toNat bytes := by
  have hcommand : o.execute b false =
      { o with bytes := o.bytes ++ [(false, b)], ac := a.setWidth 7, inCg := true } := by
    simp [Observer.execute, Observer.command, hb]
  have ha : (a.setWidth 7).toNat = a.toNat := BitVec.toNat_setWidth_of_le (by decide)
  rw [performed_append, observeAll_append, observeAll_sendByte hc hm hh, hcommand]
  exact observeAll_sendData_cg hc bl bytes (o := Observer.withLatch _ _ _) hm rfl rfl (congrArg (· % 64) ha)

end

/-- The command of a CGRAM slot sets the first address of the slot. -/
theorem decodeCommand_setCgramCommand : ∀ k < 8,
    decodeCommand (setCgramCommand Config.default (BitVec.ofNat 8 (k * 8))) =
      .ok (.setCgramAddress (BitVec.ofNat 6 (k * 8))) := by
  decide

theorem slotAddress_eq (slot : Byte) : slotAddress slot = BitVec.ofNat 8 (slot.toNat % 8 * 8) := by
  rw [← toNat_slotAddress, BitVec.ofNat_toNat, BitVec.setWidth_eq]

/-- Settles O60: the command sets the address counter, and the data bytes fill the memory from there. -/
theorem stringsAndGlyphsReachController : Obligations.StringsAndGlyphsReachController := by
  intro o bl hm hh hdd hcg
  have hc : Config.default.wf = true := by decide
  refine ⟨fun line col text k hk hlast => ?_, fun slot g k hk => ?_, fun gs k hk hlast => ?_⟩
  · have hb : decodeCommand (setDdramCommand line col) = .ok (.setDdramAddress (resolve line col)) :=
      (cursorCommandIsSetDdram line col).2.2
    rw [eventsOf, wrstrEvents, observeAll_string hc bl text hm hh hb]
    exact Memory.read_fill hdd hk hlast
  · have hslot : slot.toNat % 8 < 8 := Nat.mod_lt _ (by decide)
    have hb := decodeCommand_setCgramCommand _ hslot
    have haddr : (8 * (slot.toNat % 8) + k) = ((BitVec.ofNat 6 (slot.toNat % 8 * 8)).toNat + k) % 64 := by
      rw [glyph_rows_length] at hk
      rw [BitVec.toNat_ofNat]
      omega
    rw [eventsOf, ldglyphEvents, slotAddress_eq, observeAll_glyphs hc bl g.rows hm hh hb, haddr]
    exact Memory.read_fill hcg hk (by rw [glyph_rows_length]; omega)
  · have hb := decodeCommand_setCgramCommand 0 (by decide)
    have h := Memory.read_fill (a := 0) hcg hk hlast
    rw [Nat.zero_add] at h
    rw [eventsOf, ldglyphsEvents]
    exact (congrArg (Memory.read cgDefault · (k % 64)) (observeAll_glyphs hc bl _ hm hh hb)).trans h

end Sys2Proof.Machine
end
